-- ==== Sys2Proof/Word.lean ====
section
/-! DEFINITION. The widths of rule R9 (word, half word, byte), the 7-bit opcode of R91 and the byte a
`Host.Cell` holds. Only names for bit-vector types: arithmetic on them is `BitVec`'s, modulo the width (R9). -/

namespace Sys2Proof

/-- A register, an address, an instruction: 32 bits (R9, R21, R90). -/
abbrev Word := BitVec 32

/-- A half word, the source's "short": 16 bits (R9). -/
abbrev Half := BitVec 16

/-- A byte: 8 bits (R9). -/
abbrev Byte := BitVec 8

/-- The value of the 7-bit opcode field `w[31:25]` (R91). -/
abbrev OpcodeBits := BitVec 7

/-- A window number, 0 to 7: `CWP` and `SWP` (R22, R35, R36). Its arithmetic is modulo 8. -/
abbrev Window := BitVec 3

end Sys2Proof
end

