-- ==== Sys2Proof/Config.lean ====
section
/-! DEFINITION. What is fixed for a machine and not settled by the source: the parameters of rule R7, as plain
data (their defaults are `Sys2Proof.Machine.defaultParams`), and the free values: the spec's `draw` (R10), the input
`IRQ` (R247), and what a device answers (R71). -/

namespace Sys2Proof

/-- Byte order, parameter `ENDIAN` (R62, D7). -/
inductive Endian where
  | big
  | little
deriving DecidableEq, Repr

/-- Extension of `imm19` in the PC-relative forms, parameter `IMM19_REL_EXT` (R97, D10). -/
inductive RelExt where
  | zero
  | sign
deriving DecidableEq, Repr

/-- Form of `subc` and `subci`, parameter `SUBC_FORM` (R185, D12): `a - b + C` or `a - b - (1 - C)`. -/
inductive SubcForm where
  | literal
  | borrow
deriving DecidableEq, Repr

/-- What a call or return into window `SWP` does, parameter `WINDOW_CHECK` (R246, D22). -/
inductive WindowCheck where
  | refuse
  | trap
  | none
deriving DecidableEq, Repr

/-- What a platform keeps at an address: "Which addresses hold RAM, ROM or devices, and what a read of an address that
holds nothing returns, is the platform's" (R72, D44). No kind makes an access fault (R73; assumption 8). -/
inductive RegionKind where
  /-- Plain memory. -/
  | ram
  /-- Memory that stores leave alone. -/
  | rom
  /-- Nothing: every byte reads as `returns`, and stores are lost. -/
  | empty (returns : Byte)
  /-- A device, or anything else whose reads the platform does not fix: each read is a free value, and stores reach no
  memory. -/
  | device
deriving DecidableEq, Repr

/-- A range of addresses, `base` to `base + size - 1`, and what stands there. -/
structure Region where
  base : Nat
  size : Nat
  kind : RegionKind
deriving DecidableEq, Repr

/-- The two accesses a step can make: one fetch, and one load or store (R71). -/
inductive Access where
  | fetch
  | data
deriving DecidableEq, Repr

/-- Parameter `OPCODE_MAP` (R100, D2): the 7-bit opcode of each of the 39 mnemonics. "A model must keep it a
configuration field, not a constant." -/
structure OpcodeMap where
  calli : OpcodeBits
  getpsw : OpcodeBits
  getlpc : OpcodeBits
  putpsw : OpcodeBits
  callx : OpcodeBits
  callr : OpcodeBits
  jmpx : OpcodeBits
  jmpr : OpcodeBits
  ret : OpcodeBits
  reti : OpcodeBits
  sll : OpcodeBits
  sra : OpcodeBits
  srl : OpcodeBits
  ldhi : OpcodeBits
  and : OpcodeBits
  or : OpcodeBits
  xor : OpcodeBits
  add : OpcodeBits
  addc : OpcodeBits
  sub : OpcodeBits
  subc : OpcodeBits
  subi : OpcodeBits
  subci : OpcodeBits
  ldxw : OpcodeBits
  ldrw : OpcodeBits
  lxhu : OpcodeBits
  lrhu : OpcodeBits
  lxhs : OpcodeBits
  lrhs : OpcodeBits
  lxbu : OpcodeBits
  lrbu : OpcodeBits
  lxbs : OpcodeBits
  lrbs : OpcodeBits
  stxw : OpcodeBits
  strw : OpcodeBits
  stxh : OpcodeBits
  strh : OpcodeBits
  stxb : OpcodeBits
  strb : OpcodeBits
deriving DecidableEq, Repr

/-- The parameters of rule R7. `IRQ`, the ninth of them, is an input and stands in the state. -/
structure Params where
  /-- `OPCODE_MAP` (R100). -/
  opcodeMap : OpcodeMap
  /-- `ENDIAN` (R62). -/
  endian : Endian
  /-- `IMM19_REL_EXT` (R97). -/
  imm19RelExt : RelExt
  /-- `SUBC_FORM` (R185). -/
  subcForm : SubcForm
  /-- `WINDOW_CHECK` (R246). -/
  windowCheck : WindowCheck
  /-- `SYNC_TRAPS_MASKED_BY_I` (R255). -/
  syncTrapsMaskedByI : Bool
  /-- `RESET_PC` (R50); its low two bits must be 00 (R66). -/
  resetPc : Word
  /-- `MEMMAP` (R72): at an address, the first region of the list that holds it; elsewhere RAM. The default is the empty
  list: "every address is plain memory". -/
  memMap : List Region
deriving DecidableEq, Repr

/-- `draw(width)`, the `k`-th one of a run: "an `n`-bit value under no law, chosen afresh at each use" (R10).
It has no body, so nothing can be proved of its value (assumption 11). -/
opaque Config.draw (width k : Nat) : BitVec width

/-- The input `IRQ` at the `step`-th step of a run: "a free bit at every step (an oracle under no law)" (R247). It has
no body, so no proof can rest on an interrupt arriving or not arriving (R293; assumption 10). -/
opaque Config.irqAt (step : Nat) : Bool

/-- What a device answers for the byte at `address` to an access of the `step`-th step (R71, R72). It has no body: it may
differ at every step and between the fetch and the load of one step (assumption 8). -/
opaque Config.deviceByte (access : Access) (step address : Nat) : Byte

end Sys2Proof
end

