-- ==== Sys2Proof/Syntax.lean ====
section
/-! DEFINITION. The 39 instructions of rule R2 with their operand fields (R91 to R99), one constructor per row of
spec/opcode_table.json. Bits that the hardware ignores (R103) are in no field. -/

namespace Sys2Proof

/-- A register name `r0 .. r31`: a 5-bit field (R22, R91). -/
abbrev RegName := BitVec 5

/-- The 4-bit condition (R140). `c0000` is the code the source's table does not have. -/
inductive Cond where
  | c0000
  | gt
  | le
  | ge
  | lt
  | hi
  | los
  | lo
  | his
  | pl
  | mi
  | ne
  | eq
  | nv
  | v
  | alw
deriving DecidableEq, Repr

/-- shortSource2 (R93, R94): a register or a signed 13-bit immediate. -/
inductive Src2 where
  | reg (rs2 : RegName)
  | imm (imm13 : BitVec 13)
deriving DecidableEq, Repr

/-- The 39 mnemonics (R2). -/
inductive Mnemonic where
  | calli
  | getpsw
  | getlpc
  | putpsw
  | callx
  | callr
  | jmpx
  | jmpr
  | ret
  | reti
  | sll
  | sra
  | srl
  | ldhi
  | and
  | or
  | xor
  | add
  | addc
  | sub
  | subc
  | subi
  | subci
  | ldxw
  | ldrw
  | lxhu
  | lrhu
  | lxhs
  | lrhs
  | lxbu
  | lrbu
  | lxbs
  | lrbs
  | stxw
  | strw
  | stxh
  | strh
  | stxb
  | strb
deriving DecidableEq, Repr

/-- An instruction. `scc` is bit 24 (R91), `rd` is DEST read as a register (R98: destination, or the data register
of a store), `cond` is DEST read as a condition (R99), `rs1`, `s2` and `imm19` are the fields of R92 and R95. -/
inductive Instr where
  | calli (scc : Bool) (rd : RegName)
  | getpsw (scc : Bool) (rd : RegName) (s2 : Src2)
  | getlpc (scc : Bool) (rd : RegName)
  | putpsw (scc : Bool) (rs1 : RegName) (s2 : Src2)
  | callx (scc : Bool) (rd rs1 : RegName) (s2 : Src2)
  | callr (scc : Bool) (rd : RegName) (imm19 : BitVec 19)
  | jmpx (scc : Bool) (cond : Cond) (rs1 : RegName) (s2 : Src2)
  | jmpr (scc : Bool) (cond : Cond) (imm19 : BitVec 19)
  | ret (scc : Bool) (cond : Cond) (rs1 : RegName) (s2 : Src2)
  | reti (scc : Bool) (cond : Cond) (rs1 : RegName) (s2 : Src2)
  | sll (scc : Bool) (rd rs1 : RegName) (s2 : Src2)
  | sra (scc : Bool) (rd rs1 : RegName) (s2 : Src2)
  | srl (scc : Bool) (rd rs1 : RegName) (s2 : Src2)
  | ldhi (scc : Bool) (rd : RegName) (imm19 : BitVec 19)
  | and (scc : Bool) (rd rs1 : RegName) (s2 : Src2)
  | or (scc : Bool) (rd rs1 : RegName) (s2 : Src2)
  | xor (scc : Bool) (rd rs1 : RegName) (s2 : Src2)
  | add (scc : Bool) (rd rs1 : RegName) (s2 : Src2)
  | addc (scc : Bool) (rd rs1 : RegName) (s2 : Src2)
  | sub (scc : Bool) (rd rs1 : RegName) (s2 : Src2)
  | subc (scc : Bool) (rd rs1 : RegName) (s2 : Src2)
  | subi (scc : Bool) (rd rs1 : RegName) (s2 : Src2)
  | subci (scc : Bool) (rd rs1 : RegName) (s2 : Src2)
  | ldxw (scc : Bool) (rd rs1 : RegName) (s2 : Src2)
  | ldrw (scc : Bool) (rd : RegName) (imm19 : BitVec 19)
  | lxhu (scc : Bool) (rd rs1 : RegName) (s2 : Src2)
  | lrhu (scc : Bool) (rd : RegName) (imm19 : BitVec 19)
  | lxhs (scc : Bool) (rd rs1 : RegName) (s2 : Src2)
  | lrhs (scc : Bool) (rd : RegName) (imm19 : BitVec 19)
  | lxbu (scc : Bool) (rd rs1 : RegName) (s2 : Src2)
  | lrbu (scc : Bool) (rd : RegName) (imm19 : BitVec 19)
  | lxbs (scc : Bool) (rd rs1 : RegName) (s2 : Src2)
  | lrbs (scc : Bool) (rd : RegName) (imm19 : BitVec 19)
  | stxw (scc : Bool) (rd rs1 : RegName) (s2 : Src2)
  | strw (scc : Bool) (rd : RegName) (imm19 : BitVec 19)
  | stxh (scc : Bool) (rd rs1 : RegName) (s2 : Src2)
  | strh (scc : Bool) (rd : RegName) (imm19 : BitVec 19)
  | stxb (scc : Bool) (rd rs1 : RegName) (s2 : Src2)
  | strb (scc : Bool) (rd : RegName) (imm19 : BitVec 19)
deriving DecidableEq, Repr

end Sys2Proof
end

