-- ==== Sys2Proof/WellFormed.lean ====
section
/-! DEFINITION. The constraints of rules R104 and R140 on a decoded instruction, as far as breaking them leaves the
instruction no effect ("must" rows treated by `refuse`). Field ranges need no check: the types of Syntax.lean are
exactly the fields. SCC = 1 on `callx` and `callr` is not here: it leaves the flags undefined and the call runs
(R104, second treatment; assumption 17). -/

namespace Sys2Proof

/-- "SCC MUST be OFF" (`putpsw`, `jmpx`, `jmpr`, `ret`). -/
def sccOff (scc : Bool) : Bool := !scc

/-- "`shortSource2` MUST be register 0 (and NOT an immediate)" (`getpsw`, `callx`). -/
def src2IsR0 (s2 : Src2) : Bool := s2 == .reg 0

/-- "Shortsource2 MUST be imm13, not a register" (`stxw`, `stxh`, `stxb`). -/
def src2IsImm : Src2 → Bool
  | .imm _ => true
  | .reg _ => false

/-- The condition is one of the 15 of the source's table (R140). -/
def condInTable (c : Cond) : Bool := c != .c0000

/-- Which instructions the spec gives an effect (R104, R140). -/
def Instr.wellFormed : Instr → Bool
  | .calli _ _ => true
  | .getpsw _ _ s2 => src2IsR0 s2
  | .getlpc _ _ => true
  | .putpsw scc _ _ => sccOff scc
  | .callx _ _ _ s2 => src2IsR0 s2
  | .callr _ _ _ => true
  | .jmpx scc cond _ _ => sccOff scc && condInTable cond
  | .jmpr scc cond _ => sccOff scc && condInTable cond
  | .ret scc cond _ _ => sccOff scc && condInTable cond
  | .reti _ cond _ _ => condInTable cond
  | .sll _ _ _ _ => true
  | .sra _ _ _ _ => true
  | .srl _ _ _ _ => true
  | .ldhi _ _ _ => true
  | .and _ _ _ _ => true
  | .or _ _ _ _ => true
  | .xor _ _ _ _ => true
  | .add _ _ _ _ => true
  | .addc _ _ _ _ => true
  | .sub _ _ _ _ => true
  | .subc _ _ _ _ => true
  | .subi _ _ _ _ => true
  | .subci _ _ _ _ => true
  | .ldxw _ _ _ _ => true
  | .ldrw _ _ _ => true
  | .lxhu _ _ _ _ => true
  | .lrhu _ _ _ => true
  | .lxhs _ _ _ _ => true
  | .lrhs _ _ _ => true
  | .lxbu _ _ _ _ => true
  | .lrbu _ _ _ => true
  | .lxbs _ _ _ _ => true
  | .lrbs _ _ _ => true
  | .stxw _ _ _ s2 => src2IsImm s2
  | .strw _ _ _ => true
  | .stxh _ _ _ s2 => src2IsImm s2
  | .strh _ _ _ => true
  | .stxb _ _ _ s2 => src2IsImm s2
  | .strb _ _ _ => true

end Sys2Proof
end

