-- ==== Sys2Proof/Decode.lean ====
section
/-! DEFINITION. Decoding (R90 to R105) and encoding (R108) under an opcode map, and the byte order of an
instruction word (R61, R63). -/

namespace Sys2Proof

/-! ### Names and codes -/

/-- The mnemonic of an instruction. -/
def Instr.mnemonic : Instr → Mnemonic
  | .calli _ _ => .calli
  | .getpsw _ _ _ => .getpsw
  | .getlpc _ _ => .getlpc
  | .putpsw _ _ _ => .putpsw
  | .callx _ _ _ _ => .callx
  | .callr _ _ _ => .callr
  | .jmpx _ _ _ _ => .jmpx
  | .jmpr _ _ _ => .jmpr
  | .ret _ _ _ _ => .ret
  | .reti _ _ _ _ => .reti
  | .sll _ _ _ _ => .sll
  | .sra _ _ _ _ => .sra
  | .srl _ _ _ _ => .srl
  | .ldhi _ _ _ => .ldhi
  | .and _ _ _ _ => .and
  | .or _ _ _ _ => .or
  | .xor _ _ _ _ => .xor
  | .add _ _ _ _ => .add
  | .addc _ _ _ _ => .addc
  | .sub _ _ _ _ => .sub
  | .subc _ _ _ _ => .subc
  | .subi _ _ _ _ => .subi
  | .subci _ _ _ _ => .subci
  | .ldxw _ _ _ _ => .ldxw
  | .ldrw _ _ _ => .ldrw
  | .lxhu _ _ _ _ => .lxhu
  | .lrhu _ _ _ => .lrhu
  | .lxhs _ _ _ _ => .lxhs
  | .lrhs _ _ _ => .lrhs
  | .lxbu _ _ _ _ => .lxbu
  | .lrbu _ _ _ => .lrbu
  | .lxbs _ _ _ _ => .lxbs
  | .lrbs _ _ _ => .lrbs
  | .stxw _ _ _ _ => .stxw
  | .strw _ _ _ => .strw
  | .stxh _ _ _ _ => .stxh
  | .strh _ _ _ => .strh
  | .stxb _ _ _ _ => .stxb
  | .strb _ _ _ => .strb

/-- The SCC bit `w[24]` of an instruction (R91). -/
def Instr.scc : Instr → Bool
  | .calli scc _ => scc
  | .getpsw scc _ _ => scc
  | .getlpc scc _ => scc
  | .putpsw scc _ _ => scc
  | .callx scc _ _ _ => scc
  | .callr scc _ _ => scc
  | .jmpx scc _ _ _ => scc
  | .jmpr scc _ _ => scc
  | .ret scc _ _ _ => scc
  | .reti scc _ _ _ => scc
  | .sll scc _ _ _ => scc
  | .sra scc _ _ _ => scc
  | .srl scc _ _ _ => scc
  | .ldhi scc _ _ => scc
  | .and scc _ _ _ => scc
  | .or scc _ _ _ => scc
  | .xor scc _ _ _ => scc
  | .add scc _ _ _ => scc
  | .addc scc _ _ _ => scc
  | .sub scc _ _ _ => scc
  | .subc scc _ _ _ => scc
  | .subi scc _ _ _ => scc
  | .subci scc _ _ _ => scc
  | .ldxw scc _ _ _ => scc
  | .ldrw scc _ _ => scc
  | .lxhu scc _ _ _ => scc
  | .lrhu scc _ _ => scc
  | .lxhs scc _ _ _ => scc
  | .lrhs scc _ _ => scc
  | .lxbu scc _ _ _ => scc
  | .lrbu scc _ _ => scc
  | .lxbs scc _ _ _ => scc
  | .lrbs scc _ _ => scc
  | .stxw scc _ _ _ => scc
  | .strw scc _ _ => scc
  | .stxh scc _ _ _ => scc
  | .strh scc _ _ => scc
  | .stxb scc _ _ _ => scc
  | .strb scc _ _ => scc

/-- The 39 mnemonics, in the order of spec/opcode_table.json. -/
def allMnemonics : List Mnemonic :=
  [.calli, .getpsw, .getlpc, .putpsw, .callx, .callr, .jmpx, .jmpr] ++
  [.ret, .reti, .sll, .sra, .srl, .ldhi, .and, .or] ++
  [.xor, .add, .addc, .sub, .subc, .subi, .subci, .ldxw] ++
  [.ldrw, .lxhu, .lrhu, .lxhs, .lrhs, .lxbu, .lrbu, .lxbs] ++
  [.lrbs, .stxw, .strw, .stxh, .strh, .stxb, .strb]

/-- The opcode a map gives a mnemonic (R100). -/
def OpcodeMap.op (m : OpcodeMap) : Mnemonic → OpcodeBits
  | .calli => m.calli
  | .getpsw => m.getpsw
  | .getlpc => m.getlpc
  | .putpsw => m.putpsw
  | .callx => m.callx
  | .callr => m.callr
  | .jmpx => m.jmpx
  | .jmpr => m.jmpr
  | .ret => m.ret
  | .reti => m.reti
  | .sll => m.sll
  | .sra => m.sra
  | .srl => m.srl
  | .ldhi => m.ldhi
  | .and => m.and
  | .or => m.or
  | .xor => m.xor
  | .add => m.add
  | .addc => m.addc
  | .sub => m.sub
  | .subc => m.subc
  | .subi => m.subi
  | .subci => m.subci
  | .ldxw => m.ldxw
  | .ldrw => m.ldrw
  | .lxhu => m.lxhu
  | .lrhu => m.lrhu
  | .lxhs => m.lxhs
  | .lrhs => m.lrhs
  | .lxbu => m.lxbu
  | .lrbu => m.lrbu
  | .lxbs => m.lxbs
  | .lrbs => m.lrbs
  | .stxw => m.stxw
  | .strw => m.strw
  | .stxh => m.stxh
  | .strh => m.strh
  | .stxb => m.stxb
  | .strb => m.strb

/-- `OPCODE_MAP` is "an injective function from the 39 mnemonics to `0 .. 127`" (R100). -/
def OpcodeMap.injective (m : OpcodeMap) : Bool :=
  decide (allMnemonics.map m.op).Nodup

/-- The default `OPCODE_MAP`, the table of R100 (PRESUMED by the spec from general knowledge: assumption 1). -/
def defaultOpcodeMap : OpcodeMap where
  calli := 0x01
  getpsw := 0x02
  getlpc := 0x03
  putpsw := 0x04
  callx := 0x08
  callr := 0x09
  jmpx := 0x0C
  jmpr := 0x0D
  ret := 0x0E
  reti := 0x0F
  sll := 0x11
  sra := 0x12
  srl := 0x13
  ldhi := 0x14
  and := 0x15
  or := 0x16
  xor := 0x17
  add := 0x18
  addc := 0x19
  sub := 0x1C
  subc := 0x1D
  subi := 0x1E
  subci := 0x1F
  ldxw := 0x26
  ldrw := 0x27
  lxhu := 0x28
  lrhu := 0x29
  lxhs := 0x2A
  lrhs := 0x2B
  lxbu := 0x2C
  lrbu := 0x2D
  lxbs := 0x2E
  lrbs := 0x2F
  stxw := 0x36
  strw := 0x37
  stxh := 0x3A
  strh := 0x3B
  stxb := 0x3E
  strb := 0x3F

/-- The 4-bit code of a condition (R140). -/
def Cond.code : Cond → BitVec 4
  | .c0000 => 0
  | .gt => 1
  | .le => 2
  | .ge => 3
  | .lt => 4
  | .hi => 5
  | .los => 6
  | .lo => 7
  | .his => 8
  | .pl => 9
  | .mi => 10
  | .ne => 11
  | .eq => 12
  | .nv => 13
  | .v => 14
  | .alw => 15

/-- The condition a 4-bit code names (R140). -/
def condOfCode (c : BitVec 4) : Cond :=
  match c.toNat with
  | 0 => .c0000
  | 1 => .gt
  | 2 => .le
  | 3 => .ge
  | 4 => .lt
  | 5 => .hi
  | 6 => .los
  | 7 => .lo
  | 8 => .his
  | 9 => .pl
  | 10 => .mi
  | 11 => .ne
  | 12 => .eq
  | 13 => .nv
  | 14 => .v
  | _ => .alw

/-! ### Byte order (R61) -/

/-- The word made of the four bytes at `a`, `a + 1`, `a + 2`, `a + 3` (R61). -/
def wordOfBytes (e : Endian) (b0 b1 b2 b3 : Byte) : Word :=
  match e with
  | .big => b0 ++ b1 ++ b2 ++ b3
  | .little => b3 ++ b2 ++ b1 ++ b0

/-- The half word made of the two bytes at `a`, `a + 1` (R61). -/
def halfOfBytes (e : Endian) (b0 b1 : Byte) : Half :=
  match e with
  | .big => b0 ++ b1
  | .little => b1 ++ b0

/-- Byte `k` of a word, byte 0 its least significant one. -/
def byteOfWord (k : Nat) (v : Word) : Byte :=
  v.extractLsb' (8 * k) 8

/-- The bytes of a word in address order (R61, the inverse of `wordOfBytes`). -/
def bytesOfWord (e : Endian) (v : Word) : List Byte :=
  match e with
  | .big => [byteOfWord 3 v, byteOfWord 2 v, byteOfWord 1 v, byteOfWord 0 v]
  | .little => [byteOfWord 0 v, byteOfWord 1 v, byteOfWord 2 v, byteOfWord 3 v]

/-- The bytes of the low half of a word in address order (R61, R69). -/
def bytesOfHalf (e : Endian) (v : Word) : List Byte :=
  match e with
  | .big => [byteOfWord 1 v, byteOfWord 0 v]
  | .little => [byteOfWord 0 v, byteOfWord 1 v]

/-! ### Fields of an instruction word (R91 to R99) -/

/-- `w[31:25]`. -/
def opField (w : Word) : OpcodeBits := w.extractLsb' 25 7

/-- `w[24]`. -/
def sccField (w : Word) : Bool := w.getLsbD 24

/-- `w[23:19]`. -/
def destField (w : Word) : RegName := w.extractLsb' 19 5

/-- `w[22:19]`; `w[23]` is ignored (R99). -/
def condField (w : Word) : Cond := condOfCode (w.extractLsb' 19 4)

/-- `w[18:14]`. -/
def rs1Field (w : Word) : RegName := w.extractLsb' 14 5

/-- `w[13:0]`, with `w[12:5]` ignored in the register form (R93, R94). -/
def src2Field (w : Word) : Src2 :=
  if w.getLsbD 13 then .imm (w.extractLsb' 0 13) else .reg (w.extractLsb' 0 5)

/-- `w[18:0]`. -/
def imm19Field (w : Word) : BitVec 19 := w.extractLsb' 0 19

/-! ### Decoding -/

/-- Why a word or a list of bytes is no instruction. -/
inductive DecodeError where
  /-- The opcode is assigned to no mnemonic (R105). -/
  | unassignedOpcode (op : OpcodeBits)
  /-- Fewer than the four bytes of an instruction (R90). -/
  | truncated
deriving DecidableEq, Repr

/-- The mnemonic whose opcode is `op`, if any (R102). -/
def mnemonicOf (m : OpcodeMap) (op : OpcodeBits) : Option Mnemonic :=
  allMnemonics.find? (fun k => m.op k == op)

/-- The instruction of a mnemonic with the fields of `w` (R98, R100). -/
def instrOf (k : Mnemonic) (w : Word) : Instr :=
  match k with
  | .calli => .calli (sccField w) (destField w)
  | .getpsw => .getpsw (sccField w) (destField w) (src2Field w)
  | .getlpc => .getlpc (sccField w) (destField w)
  | .putpsw => .putpsw (sccField w) (rs1Field w) (src2Field w)
  | .callx => .callx (sccField w) (destField w) (rs1Field w) (src2Field w)
  | .callr => .callr (sccField w) (destField w) (imm19Field w)
  | .jmpx => .jmpx (sccField w) (condField w) (rs1Field w) (src2Field w)
  | .jmpr => .jmpr (sccField w) (condField w) (imm19Field w)
  | .ret => .ret (sccField w) (condField w) (rs1Field w) (src2Field w)
  | .reti => .reti (sccField w) (condField w) (rs1Field w) (src2Field w)
  | .sll => .sll (sccField w) (destField w) (rs1Field w) (src2Field w)
  | .sra => .sra (sccField w) (destField w) (rs1Field w) (src2Field w)
  | .srl => .srl (sccField w) (destField w) (rs1Field w) (src2Field w)
  | .ldhi => .ldhi (sccField w) (destField w) (imm19Field w)
  | .and => .and (sccField w) (destField w) (rs1Field w) (src2Field w)
  | .or => .or (sccField w) (destField w) (rs1Field w) (src2Field w)
  | .xor => .xor (sccField w) (destField w) (rs1Field w) (src2Field w)
  | .add => .add (sccField w) (destField w) (rs1Field w) (src2Field w)
  | .addc => .addc (sccField w) (destField w) (rs1Field w) (src2Field w)
  | .sub => .sub (sccField w) (destField w) (rs1Field w) (src2Field w)
  | .subc => .subc (sccField w) (destField w) (rs1Field w) (src2Field w)
  | .subi => .subi (sccField w) (destField w) (rs1Field w) (src2Field w)
  | .subci => .subci (sccField w) (destField w) (rs1Field w) (src2Field w)
  | .ldxw => .ldxw (sccField w) (destField w) (rs1Field w) (src2Field w)
  | .ldrw => .ldrw (sccField w) (destField w) (imm19Field w)
  | .lxhu => .lxhu (sccField w) (destField w) (rs1Field w) (src2Field w)
  | .lrhu => .lrhu (sccField w) (destField w) (imm19Field w)
  | .lxhs => .lxhs (sccField w) (destField w) (rs1Field w) (src2Field w)
  | .lrhs => .lrhs (sccField w) (destField w) (imm19Field w)
  | .lxbu => .lxbu (sccField w) (destField w) (rs1Field w) (src2Field w)
  | .lrbu => .lrbu (sccField w) (destField w) (imm19Field w)
  | .lxbs => .lxbs (sccField w) (destField w) (rs1Field w) (src2Field w)
  | .lrbs => .lrbs (sccField w) (destField w) (imm19Field w)
  | .stxw => .stxw (sccField w) (destField w) (rs1Field w) (src2Field w)
  | .strw => .strw (sccField w) (destField w) (imm19Field w)
  | .stxh => .stxh (sccField w) (destField w) (rs1Field w) (src2Field w)
  | .strh => .strh (sccField w) (destField w) (imm19Field w)
  | .stxb => .stxb (sccField w) (destField w) (rs1Field w) (src2Field w)
  | .strb => .strb (sccField w) (destField w) (imm19Field w)

/-- Decoding a word: the opcode alone selects the instruction (R102); a word with an unassigned opcode is no
instruction (R105). -/
def decodeWith (m : OpcodeMap) (w : Word) : Except DecodeError Instr :=
  match mnemonicOf m (opField w) with
  | none => .error (.unassignedOpcode (opField w))
  | some k => .ok (instrOf k w)

/-- Decoding bytes in address order: the instruction of the first four and the bytes after them (R63, R90). -/
def decodeBytes (m : OpcodeMap) (e : Endian) : List Byte → Except DecodeError (Instr × List Byte)
  | b0 :: b1 :: b2 :: b3 :: rest =>
    match decodeWith m (wordOfBytes e b0 b1 b2 b3) with
    | .ok i => .ok (i, rest)
    | .error r => .error r
  | _ => .error .truncated

/-! ### Encoding (R108) -/

/-- The 14 bits of shortSource2; the ignored bits 12:5 are written as zeros (R93, R94). -/
def src2Bits : Src2 → BitVec 14
  | .reg rs2 => 0#9 ++ rs2
  | .imm imm13 => 1#1 ++ imm13

/-- Bits 18:0 of a short-format word (R92). -/
def shortBits (rs1 : RegName) (s2 : Src2) : BitVec 19 := rs1 ++ src2Bits s2

/-- Bits 23:19 of a conditional instruction; the ignored bit 23 is written as zero (R99). -/
def condBits (c : Cond) : BitVec 5 := 0#1 ++ c.code

/-- Bits 23:19 of an instruction's word (R98, R99); an ignored DEST is written as zeros (R103). -/
def Instr.destBits : Instr → BitVec 5
  | .calli _ rd => rd
  | .getpsw _ rd _ => rd
  | .getlpc _ rd => rd
  | .putpsw _ _ _ => 0
  | .callx _ rd _ _ => rd
  | .callr _ rd _ => rd
  | .jmpx _ cond _ _ => condBits cond
  | .jmpr _ cond _ => condBits cond
  | .ret _ cond _ _ => condBits cond
  | .reti _ cond _ _ => condBits cond
  | .sll _ rd _ _ => rd
  | .sra _ rd _ _ => rd
  | .srl _ rd _ _ => rd
  | .ldhi _ rd _ => rd
  | .and _ rd _ _ => rd
  | .or _ rd _ _ => rd
  | .xor _ rd _ _ => rd
  | .add _ rd _ _ => rd
  | .addc _ rd _ _ => rd
  | .sub _ rd _ _ => rd
  | .subc _ rd _ _ => rd
  | .subi _ rd _ _ => rd
  | .subci _ rd _ _ => rd
  | .ldxw _ rd _ _ => rd
  | .ldrw _ rd _ => rd
  | .lxhu _ rd _ _ => rd
  | .lrhu _ rd _ => rd
  | .lxhs _ rd _ _ => rd
  | .lrhs _ rd _ => rd
  | .lxbu _ rd _ _ => rd
  | .lrbu _ rd _ => rd
  | .lxbs _ rd _ _ => rd
  | .lrbs _ rd _ => rd
  | .stxw _ rd _ _ => rd
  | .strw _ rd _ => rd
  | .stxh _ rd _ _ => rd
  | .strh _ rd _ => rd
  | .stxb _ rd _ _ => rd
  | .strb _ rd _ => rd

/-- Bits 18:0 of an instruction's word (R92, R95); ignored fields are written as zeros (R103). -/
def Instr.lowBits : Instr → BitVec 19
  | .calli _ _ => 0
  | .getpsw _ _ s2 => shortBits 0 s2
  | .getlpc _ _ => 0
  | .putpsw _ rs1 s2 => shortBits rs1 s2
  | .callx _ _ rs1 s2 => shortBits rs1 s2
  | .callr _ _ imm19 => imm19
  | .jmpx _ _ rs1 s2 => shortBits rs1 s2
  | .jmpr _ _ imm19 => imm19
  | .ret _ _ rs1 s2 => shortBits rs1 s2
  | .reti _ _ rs1 s2 => shortBits rs1 s2
  | .sll _ _ rs1 s2 => shortBits rs1 s2
  | .sra _ _ rs1 s2 => shortBits rs1 s2
  | .srl _ _ rs1 s2 => shortBits rs1 s2
  | .ldhi _ _ imm19 => imm19
  | .and _ _ rs1 s2 => shortBits rs1 s2
  | .or _ _ rs1 s2 => shortBits rs1 s2
  | .xor _ _ rs1 s2 => shortBits rs1 s2
  | .add _ _ rs1 s2 => shortBits rs1 s2
  | .addc _ _ rs1 s2 => shortBits rs1 s2
  | .sub _ _ rs1 s2 => shortBits rs1 s2
  | .subc _ _ rs1 s2 => shortBits rs1 s2
  | .subi _ _ rs1 s2 => shortBits rs1 s2
  | .subci _ _ rs1 s2 => shortBits rs1 s2
  | .ldxw _ _ rs1 s2 => shortBits rs1 s2
  | .ldrw _ _ imm19 => imm19
  | .lxhu _ _ rs1 s2 => shortBits rs1 s2
  | .lrhu _ _ imm19 => imm19
  | .lxhs _ _ rs1 s2 => shortBits rs1 s2
  | .lrhs _ _ imm19 => imm19
  | .lxbu _ _ rs1 s2 => shortBits rs1 s2
  | .lrbu _ _ imm19 => imm19
  | .lxbs _ _ rs1 s2 => shortBits rs1 s2
  | .lrbs _ _ imm19 => imm19
  | .stxw _ _ rs1 s2 => shortBits rs1 s2
  | .strw _ _ imm19 => imm19
  | .stxh _ _ rs1 s2 => shortBits rs1 s2
  | .strh _ _ imm19 => imm19
  | .stxb _ _ rs1 s2 => shortBits rs1 s2
  | .strb _ _ imm19 => imm19

/-- The word of an instruction under an opcode map (R91, R108). -/
def encodeWith (m : OpcodeMap) (i : Instr) : Word :=
  m.op i.mnemonic ++ BitVec.ofBool i.scc ++ i.destBits ++ i.lowBits

/-- The word of an instruction under the default opcode map (R108). -/
def encode (i : Instr) : Word := encodeWith defaultOpcodeMap i

/-- The bits of an instruction's word that the hardware ignores (R103, R93, R99), as a mask. -/
def src2IgnoredBits : Src2 → Word
  | .reg _ => 0x1FE0
  | .imm _ => 0

/-- The bits of an instruction's word that the hardware ignores (R103), as a mask. -/
def Instr.ignoredBits : Instr → Word
  | .calli _ _ => 0x7FFFF
  | .getpsw _ _ s2 => 0x7C000 ||| src2IgnoredBits s2
  | .getlpc _ _ => 0x7FFFF
  | .putpsw _ _ s2 => 0xF80000 ||| src2IgnoredBits s2
  | .callx _ _ _ s2 => src2IgnoredBits s2
  | .callr _ _ _ => 0
  | .jmpx _ _ _ s2 => 0x800000 ||| src2IgnoredBits s2
  | .jmpr _ _ _ => 0x800000
  | .ret _ _ _ s2 => 0x800000 ||| src2IgnoredBits s2
  | .reti _ _ _ s2 => 0x800000 ||| src2IgnoredBits s2
  | .sll _ _ _ s2 => src2IgnoredBits s2
  | .sra _ _ _ s2 => src2IgnoredBits s2
  | .srl _ _ _ s2 => src2IgnoredBits s2
  | .ldhi _ _ _ => 0
  | .and _ _ _ s2 => src2IgnoredBits s2
  | .or _ _ _ s2 => src2IgnoredBits s2
  | .xor _ _ _ s2 => src2IgnoredBits s2
  | .add _ _ _ s2 => src2IgnoredBits s2
  | .addc _ _ _ s2 => src2IgnoredBits s2
  | .sub _ _ _ s2 => src2IgnoredBits s2
  | .subc _ _ _ s2 => src2IgnoredBits s2
  | .subi _ _ _ s2 => src2IgnoredBits s2
  | .subci _ _ _ s2 => src2IgnoredBits s2
  | .ldxw _ _ _ s2 => src2IgnoredBits s2
  | .ldrw _ _ _ => 0
  | .lxhu _ _ _ s2 => src2IgnoredBits s2
  | .lrhu _ _ _ => 0
  | .lxhs _ _ _ s2 => src2IgnoredBits s2
  | .lrhs _ _ _ => 0
  | .lxbu _ _ _ s2 => src2IgnoredBits s2
  | .lrbu _ _ _ => 0
  | .lxbs _ _ _ s2 => src2IgnoredBits s2
  | .lrbs _ _ _ => 0
  | .stxw _ _ _ s2 => src2IgnoredBits s2
  | .strw _ _ _ => 0
  | .stxh _ _ _ s2 => src2IgnoredBits s2
  | .strh _ _ _ => 0
  | .stxb _ _ _ s2 => src2IgnoredBits s2
  | .strb _ _ _ => 0

/-! ### The default machine's decoder -/

/-- The default of `ENDIAN` (R62; assumption 2). -/
def defaultEndian : Endian := .big

/-- The instruction the default machine's decoder reads from bytes in address order. -/
def decode (bs : List Byte) : Except DecodeError (Instr × List Byte) :=
  decodeBytes defaultOpcodeMap defaultEndian bs

/-- The instruction read from a word whose bits are numbered as spec/opcode_table.json numbers them (R8), laid out
as the hardware stores it. -/
def decodeTableWord (nbits w : Nat) : Option Instr :=
  match decode (bytesOfWord defaultEndian (BitVec.ofNat 32 (w % 2 ^ nbits))) with
  | .ok (i, _) => some i
  | .error _ => none

end Sys2Proof
end

