-- ==== Sys2Proof/Machine/Psw.lean ====
section
/-! DEFINITION. The processor status word: its nine fields (R34) and its 13 bits. -/

namespace Sys2Proof.Machine

/-- The processor status word (R34). Every one of its `2^13` values is legal and no bit is reserved, so it is held
as its fields; `pswBits` and `pswOfBits` are the two views (C22: `CWP` and `SWP` are fields of it, held once). -/
structure Psw where
  /-- Bits 12:10, the current window pointer (R35). -/
  cwp : Window
  /-- Bits 9:7, the saved window pointer (R36). -/
  swp : Window
  /-- Bit 6, interrupts enabled (R37). -/
  i : Bool
  /-- Bit 5, system mode (R38). -/
  s : Bool
  /-- Bit 4, the value `S` had before the last trap entry (R38). -/
  p : Bool
  /-- Bit 3, zero (R40). -/
  z : Bool
  /-- Bit 2, negative (R40). -/
  n : Bool
  /-- Bit 1, signed overflow (R40). -/
  v : Bool
  /-- Bit 0, carry, or no borrow (R40). -/
  c : Bool
deriving DecidableEq, Repr

/-- The 13 bits of the status word, most significant field first (R34). -/
def pswBits (q : Psw) : BitVec 13 :=
  q.cwp ++ q.swp ++ BitVec.ofBool q.i ++ BitVec.ofBool q.s ++ BitVec.ofBool q.p ++ BitVec.ofBool q.z ++
    BitVec.ofBool q.n ++ BitVec.ofBool q.v ++ BitVec.ofBool q.c

/-- The status word of 13 bits: the slices `putpsw` names (R34, R123). -/
def pswOfBits (b : BitVec 13) : Psw where
  cwp := b.extractLsb' 10 3
  swp := b.extractLsb' 7 3
  i := b.getLsbD 6
  s := b.getLsbD 5
  p := b.getLsbD 4
  z := b.getLsbD 3
  n := b.getLsbD 2
  v := b.getLsbD 1
  c := b.getLsbD 0

end Sys2Proof.Machine
end

