-- ==== Sys2Proof/Machine/ResetValues.lean ====
section
/-! DEFINITION. The values that `State.reset` holds: the parameters' defaults (R7), the fields of the status word
after reset (R51), and the values this model names where the spec calls the reset value unspecified (R50 to R53). -/

namespace Sys2Proof.Machine

/-- The parameters' defaults (R7; assumptions 1 to 8). -/
def defaultParams : Params where
  opcodeMap := defaultOpcodeMap
  endian := defaultEndian
  imm19RelExt := .zero
  subcForm := .literal
  windowCheck := .refuse
  syncTrapsMaskedByI := false
  resetPc := 0x80000000
  memMap := []

/-- The status word after reset: `S = 1`, `I = 0` (R51). The other fields are unspecified there and 0 here
(DESIGN CHOICE, assumption 13). -/
def resetPsw : Psw where
  cwp := 0
  swp := 0
  i := false
  s := true
  p := false
  z := false
  n := false
  v := false
  c := false

/-- Every general register after reset: `r0` is 0 (R53), the others unspecified there and 0 here
(DESIGN CHOICE, assumption 12). -/
def resetRegs : Vector Word 138 := Vector.replicate 138 0

/-- `LSTPC` after reset: unspecified (R50), 0 here (DESIGN CHOICE, assumption 13). -/
def resetLstpc : Word := 0

/-- What an address that no write has reached reads as: the platform's (R72), 0 here (DESIGN CHOICE,
assumption 14). -/
def unlistedByte : Byte := 0

end Sys2Proof.Machine
end

