-- ==== Sys2Proof/Machine/State.lean ====
section
/-! DEFINITION. The machine's state (R20), the reasons a step can stop, and the state after reset (R53, R280). -/

namespace Sys2Proof.Machine

/-- Memory (R60): (address, byte) pairs, addresses strictly rising, no byte equal to `unlistedByte`. -/
abbrev Memory := List Host.Cell

/-- The machine's state (R20), its parameters (R7) and its inputs to come (R282). -/
structure State where
  /-- The physical register file `P[0 .. 137]` (R21). -/
  regs : Vector Word 138
  /-- `PC`, the address of the instruction being executed (R30). -/
  pc : Word
  /-- `NXTPC`, the address of the next instruction (R31). -/
  nxtpc : Word
  /-- `LSTPC`, the `PC` of the last instruction (R32). -/
  lstpc : Word
  /-- `PSW` (R34). -/
  psw : Psw
  /-- `PSWnext`, the status word of a `putpsw` not yet in effect (R46). -/
  pswNext : Option Psw
  /-- Memory (R60). -/
  mem : Memory
  /-- Whether the instruction executed immediately before had SCC = 1 (R285; assumption 15). -/
  prevScc : Bool
  /-- How many free values (`draw`, R10) have been used: the model's own (assumption 11). -/
  draws : Nat
  /-- The bits of the input `IRQ` that are given for the steps to come, this step's first; past its end every step's bit
  is the free value `Config.irqAt` (R247): the model's own (assumption 10). -/
  irq : List Bool
  /-- How many steps have been made, the index of the free values a step reads: the model's own (assumption 10). -/
  steps : Nat
  /-- The machine's parameters (R7); no step changes them (assumption 9). -/
  params : Params
deriving DecidableEq, Repr

/-- The trap causes of R241. The processor records none (R241, D42); they name refusals only. -/
inductive Cause where
  /-- A word or half-word access at a misaligned address (R242). -/
  | misalignedData
  /-- A taken transfer to a misaligned target (R243). -/
  | misalignedTarget
  /-- A privileged instruction with `S = 0` (R244). -/
  | privileged
  /-- A call into window `SWP`, under `WINDOW_CHECK = trap` (R246). -/
  | windowOverflow
  /-- A return into window `SWP`, under `WINDOW_CHECK = trap` (R246). -/
  | windowUnderflow
deriving DecidableEq, Repr

/-- Why the machine stops with a fault. "No load, store or fetch raises any fault but the alignment trap" (R73), and
that trap is a next state; so this is the one case the spec excludes. -/
inductive Fault where
  /-- The fetch met a `PC` that is not a multiple of 4. Raised by the fetch. The spec excludes it: it can arise only
  from a misaligned `RESET_PC` (R66). Safe: no run from an aligned state reaches it (assumption 32). -/
  | misalignedFetch (pc : Word)
deriving DecidableEq, Repr

/-- Why an instruction is refused: the spec's `refuse(reason)` (R10, R13). "The model reports a fault naming w and PC"
(R282 sub-step 6a): `word` is the instruction word fetched at `pc` (assumption 35). -/
inductive Refusal where
  /-- The model gives the instruction no meaning. Raised by `exec` alone. Safe. -/
  | notModelled (mnemonic : String)
  /-- The word's opcode is assigned to no instruction (R105). Raised by the step. Safe. -/
  | unassignedOpcode (word pc : Word)
  /-- `putpsw` with SCC = 1: "SCC bit MUST be OFF" (R123). Raised by `putpsw`. Safe. -/
  | putpswWithScc (word pc : Word)
  /-- `getpsw` with a shortSource2 other than register 0 (R125). Raised by `getpsw`. Safe. -/
  | getpswOperand (word pc : Word)
  /-- `callx` with a shortSource2 other than register 0 (R142). Raised by `callx`. Safe. -/
  | callxOperand (word pc : Word)
  /-- `jmpx`, `jmpr` or `ret` with SCC = 1: "otherwise effective address is garbage" (R144 to R146). Raised by these
  three. Safe. -/
  | jumpWithScc (word pc : Word)
  /-- `stxw`, `stxh` or `stxb` with a register offset: "otherwise effective address is GARBAGE" (R220). Raised by
  these three. Safe. -/
  | storeRegisterOffset (word pc : Word)
  /-- Condition `0000`, absent from the source's table (R140). Raised by `jmpx`, `jmpr`, `ret`, `reti`. Safe. -/
  | cond0000 (word pc : Word)
  /-- An instruction that must not follow a `putpsw` does (R284). Raised by every instruction with SCC = 1, the
  calls, the returns and `putpsw`. Safe. -/
  | afterPutpsw (word pc : Word)
  /-- A call into window `SWP` under `WINDOW_CHECK = refuse` (R246). Raised by `callx`, `callr`, `calli`. Safe. -/
  | windowOverflow (word pc : Word)
  /-- A return into window `SWP` under `WINDOW_CHECK = refuse` (R246). Raised by `ret`, `reti`. Safe. -/
  | windowUnderflow (word pc : Word)
  /-- The instruction after a `putpsw` raises a trap (R249, U9). Raised by trapping instructions. Safe. -/
  | trapAfterPutpsw (cause : Cause) (word pc : Word)
  /-- A trap condition with `I = 0` under `SYNC_TRAPS_MASKED_BY_I = true` (R255). Raised by trapping instructions.
  Safe. -/
  | trapWhileMasked (cause : Cause) (word pc : Word)
deriving DecidableEq, Repr

/-- The outcome of an instruction or a step. -/
abbrev Result := Host.Outcome State Fault Refusal

/-- The machine right after reset, for given parameters (R53, R280). The values that the spec calls unspecified are the
model's choices (DESIGN CHOICE, assumptions 11 to 15). The spec leaves `IRQ` free at every step (R247, R293), so no bit of
it is given here: the empty list `irq` makes the bit of EVERY step of a run from reset the free value `Config.irqAt`
(DESIGN CHOICE, assumption 10). -/
def State.resetWith (p : Params) : State where
  regs := resetRegs
  pc := p.resetPc
  nxtpc := p.resetPc + 4
  lstpc := resetLstpc
  psw := resetPsw
  pswNext := none
  mem := []
  prevScc := false
  draws := 0
  irq := []
  steps := 0
  params := p

/-- The machine right after reset, with the parameters' defaults (R7, R53, R280). -/
def State.reset : State := State.resetWith defaultParams

end Sys2Proof.Machine
end

