-- ==== Sys2Proof/Machine/Flags.lean ====
section
/-! DEFINITION. Every flag computation of the spec: the logic pattern (R160), addition (R180), subtraction (R181),
the carry-in of `addc`, `subc`, `subci` (R183, R185), the garbage flags, and the conditions (R140). -/

namespace Sys2Proof.Machine

/-- The four condition codes (R40). -/
structure Flags where
  z : Bool
  n : Bool
  v : Bool
  c : Bool
deriving DecidableEq, Repr

/-- The condition codes of a status word. -/
def pswFlags (q : Psw) : Flags := ⟨q.z, q.n, q.v, q.c⟩

/-- A status word with other condition codes. -/
def withFlags (q : Psw) (f : Flags) : Psw := { q with z := f.z, n := f.n, v := f.v, c := f.c }

/-- Bit 31 of a word: the sign bit (R8). -/
def signBit (w : Word) : Bool := w.msb

/-- The logic flag pattern (R160). -/
def logicFlags (res : Word) : Flags := ⟨res == 0, signBit res, false, false⟩

/-- A result with its carry and overflow (R180, R181). -/
structure Sum where
  res : Word
  c : Bool
  v : Bool
deriving DecidableEq, Repr

/-- Whether an exact signed result is "outside -2^31 .. 2^31 - 1" (R180, R181). -/
def signedOverflow (t : Int) : Bool := decide (t < -2 ^ 31) || decide (2 ^ 31 ≤ t)

/-- `Add(p, q, c)` (R180): the exact sum in the integers, then narrowed. -/
def addOf (p q : Word) (c : Nat) : Sum where
  res := BitVec.ofNat 32 (p.toNat + q.toNat + c)
  c := decide (2 ^ 32 ≤ p.toNat + q.toNat + c)
  v := signedOverflow (p.toInt + q.toInt + c)

/-- `Sub(p, q, e)` (R181): the exact difference in the integers, then narrowed; `c` means no borrow. -/
def subOf (p q : Word) (e : Int) : Sum where
  res := BitVec.ofInt 32 ((p.toNat : Int) - (q.toNat : Int) + e)
  c := decide (0 ≤ (p.toNat : Int) - (q.toNat : Int) + e)
  v := signedOverflow (p.toInt - q.toInt + e)

/-- The arithmetic flag write (R189). -/
def arithFlags (r : Sum) : Flags := ⟨r.res == 0, signBit r.res, r.v, r.c⟩

/-- The carry as a number, for `addc` (R183). -/
def carryNat (c : Bool) : Nat := if c then 1 else 0

/-- The adjustment `e` of `subc` and `subci` (R185): `C`, or `C - 1` under `SUBC_FORM = borrow`. -/
def subcAdjust (form : SubcForm) (c : Bool) : Int :=
  match form with
  | .literal => carryNat c
  | .borrow => (carryNat c : Int) - 1

/-- The `k`-th free value as one bit: `draw(1)` (R10). -/
def drawBit (k : Nat) : Bool := (Config.draw 1 k).getLsbD 0

/-- Four garbage flags, `Z, N, V, C <- draw(4)` (R104), the `k`-th free value. -/
def garbageFlags (k : Nat) : Flags :=
  ⟨(Config.draw 4 k).getLsbD 3, (Config.draw 4 k).getLsbD 2, (Config.draw 4 k).getLsbD 1, (Config.draw 4 k).getLsbD 0⟩

/-- The flags of an `r`-form store with SCC = 1 (R227): `Z` and `N` 0, `V` and `C` the `k`-th and next free value. -/
def relStoreFlags (k : Nat) : Flags := ⟨false, false, drawBit k, drawBit (k + 1)⟩

/-- `Cond(c)` on a status word (R140, with C3 and C4); `none` for the condition the source's table lacks. -/
def condHolds (c : Cond) (q : Psw) : Option Bool :=
  match c with
  | .c0000 => none
  | .gt => some (!((q.n ^^ q.v) || q.z))
  | .le => some ((q.n ^^ q.v) || q.z)
  | .ge => some (!(q.n ^^ q.v))
  | .lt => some (q.n ^^ q.v)
  | .hi => some (!(!q.c || q.z))
  | .los => some (!q.c || q.z)
  | .lo => some (!q.c)
  | .his => some q.c
  | .pl => some (!q.n)
  | .mi => some q.n
  | .ne => some (!q.z)
  | .eq => some q.z
  | .nv => some (!q.v)
  | .v => some q.v
  | .alw => some true

end Sys2Proof.Machine
end

