-- ==== Sys2Proof/Machine/Ops.lean ====
section
/-! DEFINITION. The operations the meanings share: register windows (R23 to R26), memory (R60 to R72), taking a trap
and returning from one (R249, R252), the window check (R246), and the end of an instruction (R282 sub-steps 5 to 8). -/

namespace Sys2Proof.Machine

/-! ### Registers -/

/-- `phys(w, i)`: the physical register of name `i` in window `w` (R23). -/
def phys (w : Window) (i : RegName) : Fin 138 :=
  if h : i.toNat < 10 then ⟨i.toNat, by omega⟩
  else ⟨10 + (16 * w.toNat + (i.toNat - 10)) % 128, by omega⟩

/-- `xw[w][i]`: register `i` of window `w`; `r0` reads as zero (R25, R26). -/
def State.xw (s : State) (w : Window) (i : RegName) : Word :=
  if i = 0 then 0 else s.regs[(phys w i).val]

/-- `x[i]`: register `i` of the current window (R26). -/
def State.x (s : State) (i : RegName) : Word := s.xw s.psw.cwp i

/-- `xw[w][i] <- v`; a write to `r0` is discarded (R25, R26). -/
def State.writeXw (s : State) (w : Window) (i : RegName) (v : Word) : State :=
  if i = 0 then s else { s with regs := s.regs.set (phys w i).val v (phys w i).isLt }

/-- `x[i] <- v` in the current window (R26). -/
def State.writeX (s : State) (i : RegName) (v : Word) : State := s.writeXw s.psw.cwp i v

/-- The window a call moves to, `(CWP - 1) mod 8` (R24, C2). -/
def callWindow (w : Window) : Window := w - 1

/-- The window a return moves to, `(CWP + 1) mod 8` (R24, C2). -/
def returnWindow (w : Window) : Window := w + 1

/-- `CWP <- w`. -/
def State.setCwp (s : State) (w : Window) : State := { s with psw := { s.psw with cwp := w } }

/-- The flag write of an instruction: nothing with SCC = 0 (R41). -/
def State.writeFlags (s : State) (scc : Bool) (f : Flags) : State :=
  if scc then { s with psw := withFlags s.psw f } else s

/-- `k` free values have been used (R10). -/
def State.useDraws (s : State) (k : Nat) : State := { s with draws := s.draws + k }

/-! ### Memory -/

/-- `B[a]`: one byte (R60). -/
def memByte : Memory → Nat → Byte
  | [], _ => unlistedByte
  | (k, b) :: rest, a => if k = a then b else memByte rest a

/-- One byte written, the canonical form kept: an entry equal to `unlistedByte` is not listed. -/
def memPut : Memory → Nat → Byte → Memory
  | [], a, b => if b = unlistedByte then [] else [(a, b)]
  | (k, c) :: rest, a, b =>
    if a < k then (if b = unlistedByte then (k, c) :: rest else (a, b) :: (k, c) :: rest)
    else if a = k then (if b = unlistedByte then rest else (a, b) :: rest)
    else (k, c) :: memPut rest a b

/-- The canonical form from address `lo` on. -/
def memWfFrom : Nat → Memory → Bool
  | _, [] => true
  | lo, (k, b) :: rest => decide (lo ≤ k) && decide (k < 2 ^ 32) && (b != unlistedByte) && memWfFrom (k + 1) rest

/-- The canonical form: addresses strictly rising and below `2^32` (R60), no entry equal to `unlistedByte`. -/
def Memory.wf (m : Memory) : Bool := memWfFrom 0 m

/-- The width of an access (R67). -/
inductive Width where
  | word
  | half
  | byte
deriving DecidableEq, Repr

/-- How many bytes an access moves (R67). -/
def widthBytes : Width → Nat
  | .word => 4
  | .half => 2
  | .byte => 1

/-- `B[a]` for a 32-bit address. -/
def readByte (m : Memory) (a : Word) : Byte := memByte m a.toNat

/-- `MemRead(a, 2)` from the bytes `byte` delivers (R61). -/
def halfAt (e : Endian) (byte : Word → Byte) (a : Word) : Half := halfOfBytes e (byte a) (byte (a + 1))

/-- `MemRead(a, 4)` from the bytes `byte` delivers (R61). -/
def wordAt (e : Endian) (byte : Word → Byte) (a : Word) : Word :=
  wordOfBytes e (byte a) (byte (a + 1)) (byte (a + 2)) (byte (a + 3))

/-- The word memory holds at `a` (R61). -/
def readWord (e : Endian) (m : Memory) (a : Word) : Word := wordAt e (readByte m) a

/-- Bytes written in address order from `a`, at the addresses that `ok` lets a write reach. -/
def writeBytes (ok : Nat → Bool) : Memory → Word → List Byte → Memory
  | m, _, [] => m
  | m, a, b :: rest => writeBytes ok (if ok a.toNat then memPut m a.toNat b else m) (a + 1) rest

/-- The bytes a store of a register writes, in address order: its low 32, 16 or 8 bits (R61, R69). -/
def storeBytes (e : Endian) (w : Width) (v : Word) : List Byte :=
  match w with
  | .word => bytesOfWord e v
  | .half => bytesOfHalf e v
  | .byte => [byteOfWord 0 v]

/-- `MemWrite(a, n, v)` (R61). -/
def memWrite (e : Endian) (m : Memory) (w : Width) (a v : Word) : Memory :=
  writeBytes (fun _ => true) m a (storeBytes e w v)

/-- "If alignment is bad": `ea[1:0] != 00` for a word, `ea[0] != 0` for a half word, never for a byte (R64, R65). -/
def misaligned (w : Width) (ea : Word) : Bool :=
  match w with
  | .word => ea.extractLsb' 0 2 != 0
  | .half => ea.extractLsb' 0 1 != 0
  | .byte => false

/-! ### The platform's memory map (R71, R72) -/

/-- Whether an address lies in a region. -/
def inRegion (r : Region) (a : Nat) : Bool := decide (r.base ≤ a) && decide (a < r.base + r.size)

/-- What `MEMMAP` keeps at an address (R72): by default RAM everywhere. -/
def regionKind (p : Params) (a : Nat) : RegionKind :=
  match p.memMap.find? (fun r => inRegion r a) with
  | some r => r.kind
  | none => .ram

/-- The byte a read of this step delivers from `a` (R71, R72): what memory holds, what the platform says of an empty
address, or what a device answers. Reading changes nothing. -/
def busByte (x : Access) (s : State) (a : Word) : Byte :=
  match regionKind s.params a.toNat with
  | .ram => readByte s.mem a
  | .rom => readByte s.mem a
  | .empty b => b
  | .device => Config.deviceByte x s.steps a.toNat

/-- Memory after a store of the low bytes of `v` at `a` (R61, R69): only RAM changes (R72; assumption 8). -/
def busWrite (s : State) (w : Width) (a v : Word) : Memory :=
  writeBytes (fun k => regionKind s.params k == .ram) s.mem a (storeBytes s.params.endian w v)

/-- `w`, the instruction word at `PC`: `MemRead(PC, 4)` (R63, R282 sub-step 2). -/
def fetchedWord (s : State) : Word := wordAt s.params.endian (busByte .fetch s) s.pc

/-- A refusal of the instruction at `PC`, "naming w and PC" (R282 sub-step 6a). -/
def State.refusal (s : State) (r : Word → Word → Refusal) : Refusal := r (fetchedWord s) s.pc

/-! ### Taking a trap and returning from one -/

/-- The one trap address, `0x80000000` (R240, R249). -/
def trapVector : Word := 0x80000000

/-- "Rd is hardwired to r25 for internal traps" (R240). -/
def trapReg : RegName := 25

/-- `TrapEntry` (R249): the mode is saved in `P`, system mode entered, interrupts disabled, the next lower window
entered, the abandoned instruction's address put in its `r25` and the address that would have followed it in `LSTPC`.
Memory, `SWP` and the condition codes are unchanged. -/
def trapEntry (s : State) : State :=
  { s.writeXw (callWindow s.psw.cwp) trapReg s.pc with
    psw := { s.psw with p := s.psw.s, s := true, i := false, cwp := callWindow s.psw.cwp }
    lstpc := s.nxtpc
    pc := trapVector
    nxtpc := trapVector + 4
    prevScc := false }

/-- What a taken `reti` restores (R124, R252): the next higher window, `I <- 1`, `S <- P`; nothing else. -/
def returnFromTrap (s : State) : State :=
  { s with psw := { s.psw with cwp := returnWindow s.psw.cwp, i := true, s := s.psw.p } }

/-- A synchronous trap: `TrapEntry`, unless a `putpsw` is pending (R249, U9) or traps are masked (R255). -/
def raiseTrap (c : Cause) (s : State) : Result :=
  if s.pswNext.isSome then .refused (s.refusal (.trapAfterPutpsw c))
  else if s.params.syncTrapsMaskedByI && !s.psw.i then .refused (s.refusal (.trapWhileMasked c))
  else .next (trapEntry s)

/-! ### The end of an instruction (R282) -/

/-- How the program counters go on (R10, R282 sub-step 7). -/
inductive Flow where
  /-- In sequence. -/
  | seq
  /-- `jump <- t`: `NXTPC <- t` (R141). -/
  | jump (t : Word)
  /-- `pcset <- a`, `calli` alone: `PC <- a`, `NXTPC <- a + 4` (R121). -/
  | pcset (a : Word)
deriving DecidableEq, Repr

/-- How the rule of an instruction ends (R13, R282 sub-step 6). -/
inductive Effect where
  /-- Completion, with the registers, memory and status fields it wrote. -/
  | done (s : State) (flow : Flow)
  /-- `raise Trap(cause)`. -/
  | trap (c : Cause)
  /-- `refuse(reason)`. -/
  | refuse (r : Refusal)

/-- `PC` after an instruction (R33, R282 sub-step 7). -/
def flowPc (s : State) : Flow → Word
  | .seq => s.nxtpc
  | .jump _ => s.nxtpc
  | .pcset a => a

/-- `NXTPC` after an instruction (R33, R282 sub-step 7). -/
def flowNxtpc (s : State) : Flow → Word
  | .seq => s.nxtpc + 4
  | .jump t => t
  | .pcset a => a + 4

/-- Sub-steps 7 and 8 of R282: the counters advance from their values `before` the instruction, and a `putpsw` of one
step ago takes effect (R46). -/
def retire (scc : Bool) (before after : State) (flow : Flow) : State :=
  { after with
    lstpc := before.pc
    pc := flowPc before flow
    nxtpc := flowNxtpc before flow
    psw := before.pswNext.getD after.psw
    pswNext := if before.pswNext.isSome then none else after.pswNext
    prevScc := scc }

/-- Sub-steps 5 to 8 of R282 for an instruction with SCC bit `scc`, whose rule ends in `e`. `never` marks the
instructions that may never follow a `putpsw`: the calls, the returns and `putpsw` (R284). -/
def conclude (scc never : Bool) (s : State) (e : Effect) : Result :=
  if s.pswNext.isSome && (scc || never) then .refused (s.refusal .afterPutpsw)
  else
    match e with
    | .done t flow => .next (retire scc s t flow)
    | .trap c => raiseTrap c s
    | .refuse r => .refused r

/-! ### Checks -/

/-- A privileged instruction traps before any other effect when `S = 0` (R120, R244). -/
def privileged (s : State) (e : Effect) : Effect := if s.psw.s then e else .trap .privileged

/-- "If alignment is bad (`eff-address<1:0> ≠ 00`), trap": the check of a taken transfer (R147). -/
def alignedTarget (ea : Word) (e : Effect) : Effect := if ea.extractLsb' 0 2 = 0 then e else .trap .misalignedTarget

/-- `WindowCheckCall(nw)` before `e` (R246). -/
def windowCheckCall (s : State) (nw : Window) (e : Effect) : Effect :=
  if nw = s.psw.swp then
    match s.params.windowCheck with
    | .refuse => .refuse (s.refusal .windowOverflow)
    | .trap => .trap .windowOverflow
    | .none => e
  else e

/-- `WindowCheckReturn(nw)` before `e` (R246). -/
def windowCheckReturn (s : State) (nw : Window) (e : Effect) : Effect :=
  if nw = s.psw.swp then
    match s.params.windowCheck with
    | .refuse => .refuse (s.refusal .windowUnderflow)
    | .trap => .trap .windowUnderflow
    | .none => e
  else e

/-- The effect `e` if the condition holds, no effect at all if it does not (R141, R144 to R146, R124). -/
def whenCond (c : Cond) (s : State) (e : Effect) : Effect :=
  match condHolds c s.psw with
  | none => .refuse (s.refusal .cond0000)
  | some true => e
  | some false => .done s .seq

end Sys2Proof.Machine
end

