-- ==== Sys2Proof/Machine/Operands.lean ====
section
/-! DEFINITION. The operand forms (R96, R97, R168, R200, R201, R220) and the loaded values (R202). -/

namespace Sys2Proof.Machine

/-- `S2`, the second source operand (R96): a register of the current window or a sign-extended immediate. -/
def src2 (s : State) : Src2 → Word
  | .reg rs2 => s.x rs2
  | .imm imm13 => imm13.signExtend 32

/-- `REL = PC + imm19`, extended as `IMM19_REL_EXT` says, modulo `2^32` (R97, R79). -/
def relAddr (s : State) (imm19 : BitVec 19) : Word :=
  match s.params.imm19RelExt with
  | .zero => s.pc + imm19.zeroExtend 32
  | .sign => s.pc + imm19.signExtend 32

/-- The absolute address `x[rs1] + S2`, modulo `2^32` (R200, R79). -/
def absAddr (s : State) (rs1 : RegName) (s2 : Src2) : Word := s.x rs1 + src2 s s2

/-- The value `ldhi` loads: `imm19` in bits 31:13 (R97, R164). -/
def highImm (imm19 : BitVec 19) : Word := imm19 ++ 0#13

/-- The shift count `S2[4:0]` (R168). -/
def shiftCount (v : Word) : Nat := (v.extractLsb' 0 5).toNat

/-- What a load delivers (R202): width and extension. -/
inductive LoadKind where
  | word
  | halfU
  | halfS
  | byteU
  | byteS
deriving DecidableEq, Repr

/-- The width of a load. -/
def loadWidth : LoadKind → Width
  | .word => .word
  | .halfU => .half
  | .halfS => .half
  | .byteU => .byte
  | .byteS => .byte

/-- The value a load delivers from the bytes `byte` finds at `ea` (R61, R69, R202). -/
def loadValue (k : LoadKind) (e : Endian) (byte : Word → Byte) (ea : Word) : Word :=
  match k with
  | .word => wordAt e byte ea
  | .halfU => (halfAt e byte ea).zeroExtend 32
  | .halfS => (halfAt e byte ea).signExtend 32
  | .byteU => (byte ea).zeroExtend 32
  | .byteS => (byte ea).signExtend 32

end Sys2Proof.Machine
end

