-- ==== Sys2Proof/Machine/Arithmetic.lean ====
section
/-! DEFINITION. `add addc sub subc subi subci` (R180 to R189). -/

namespace Sys2Proof.Machine

/-- `x[rd] <- res; SetArithFlags(res, Cn, Vn)` (R189). -/
def arithResult (scc : Bool) (rd : RegName) (r : Sum) (s : State) : Effect :=
  .done ((s.writeX rd r.res).writeFlags scc (arithFlags r)) .seq

/-- `add` (R182). -/
def execAdd (scc : Bool) (rd rs1 : RegName) (s2 : Src2) (s : State) : Result :=
  conclude scc false s (arithResult scc rd (addOf (s.x rs1) (src2 s s2) 0) s)

/-- `addc` (R183). -/
def execAddc (scc : Bool) (rd rs1 : RegName) (s2 : Src2) (s : State) : Result :=
  conclude scc false s (arithResult scc rd (addOf (s.x rs1) (src2 s s2) (carryNat s.psw.c)) s)

/-- `sub` (R184). -/
def execSub (scc : Bool) (rd rs1 : RegName) (s2 : Src2) (s : State) : Result :=
  conclude scc false s (arithResult scc rd (subOf (s.x rs1) (src2 s s2) 0) s)

/-- `subc` (R185), in the form `SUBC_FORM` selects. -/
def execSubc (scc : Bool) (rd rs1 : RegName) (s2 : Src2) (s : State) : Result :=
  conclude scc false s
    (arithResult scc rd (subOf (s.x rs1) (src2 s s2) (subcAdjust s.params.subcForm s.psw.c)) s)

/-- `subi`: `S2` is the minuend (R186). -/
def execSubi (scc : Bool) (rd rs1 : RegName) (s2 : Src2) (s : State) : Result :=
  conclude scc false s (arithResult scc rd (subOf (src2 s s2) (s.x rs1) 0) s)

/-- `subci`: `S2` is the minuend, in the form `SUBC_FORM` selects (R187). -/
def execSubci (scc : Bool) (rd rs1 : RegName) (s2 : Src2) (s : State) : Result :=
  conclude scc false s
    (arithResult scc rd (subOf (src2 s s2) (s.x rs1) (subcAdjust s.params.subcForm s.psw.c)) s)

end Sys2Proof.Machine
end

