-- ==== Sys2Proof/Machine/Control.lean ====
section
/-! DEFINITION. `callx callr jmpx jmpr ret` (R141 to R149). -/

namespace Sys2Proof.Machine

/-- The flags of a call: unchanged with SCC = 0, four free values with SCC = 1 ("otherwise condition codes are
garbage", R104; assumption 17). -/
def callFlags (scc : Bool) (s : State) : State :=
  if scc then (s.writeFlags true (garbageFlags s.draws)).useDraws 1 else s

/-- A call to `ea` (R142, R143): the target's alignment, the window check, the new window, the call's own `PC` to
`rd` of the NEW window, the delayed transfer. -/
def callEffect (scc : Bool) (rd : RegName) (ea : Word) (s : State) : Effect :=
  alignedTarget ea
    (windowCheckCall s (callWindow s.psw.cwp)
      (.done (callFlags scc ((s.setCwp (callWindow s.psw.cwp)).writeX rd s.pc)) (.jump ea)))

/-- A conditional jump to `ea` (R144, R145): "SCC MUST be OFF". -/
def jumpEffect (scc : Bool) (c : Cond) (ea : Word) (s : State) : Effect :=
  if scc then .refuse (s.refusal .jumpWithScc) else whenCond c s (alignedTarget ea (.done s (.jump ea)))

/-- `callx` (R142): "`shortSource2` MUST be register 0 (and NOT an immediate)". -/
def execCallx (scc : Bool) (rd rs1 : RegName) (s2 : Src2) (s : State) : Result :=
  conclude scc true s
    (if s2 = .reg 0 then callEffect scc rd (absAddr s rs1 s2) s else .refuse (s.refusal .callxOperand))

/-- `callr` (R143). -/
def execCallr (scc : Bool) (rd : RegName) (imm19 : BitVec 19) (s : State) : Result :=
  conclude scc true s (callEffect scc rd (relAddr s imm19) s)

/-- `jmpx` (R144). -/
def execJmpx (scc : Bool) (c : Cond) (rs1 : RegName) (s2 : Src2) (s : State) : Result :=
  conclude scc false s (jumpEffect scc c (absAddr s rs1 s2) s)

/-- `jmpr` (R145, C5). -/
def execJmpr (scc : Bool) (c : Cond) (imm19 : BitVec 19) (s : State) : Result :=
  conclude scc false s (jumpEffect scc c (relAddr s imm19) s)

/-- `ret` (R146): the window and the transfer both only if the condition holds; registers read in the old window. -/
def execRet (scc : Bool) (c : Cond) (rs1 : RegName) (s2 : Src2) (s : State) : Result :=
  conclude scc true s
    (if scc then .refuse (s.refusal .jumpWithScc)
     else
      whenCond c s
        (alignedTarget (absAddr s rs1 s2)
          (windowCheckReturn s (returnWindow s.psw.cwp)
            (.done (s.setCwp (returnWindow s.psw.cwp)) (.jump (absAddr s rs1 s2))))))

end Sys2Proof.Machine
end

