-- ==== Sys2Proof/Machine/Loads.lean ====
section
/-! DEFINITION. The ten loads (R200 to R212). -/

namespace Sys2Proof.Machine

/-- The pattern of every load (R202): the alignment trap, the access, the extended value to `rd`, the logic flags. -/
def loadEffect (k : LoadKind) (scc : Bool) (rd : RegName) (ea : Word) (s : State) : Effect :=
  if misaligned (loadWidth k) ea then .trap .misalignedData
  else
    .done ((s.writeX rd (loadValue k s.params.endian (busByte .data s) ea)).writeFlags scc
      (logicFlags (loadValue k s.params.endian (busByte .data s) ea))) .seq

/-- `ldxw`: word, absolute (R203). -/
def execLdxw (scc : Bool) (rd rs1 : RegName) (s2 : Src2) (s : State) : Result :=
  conclude scc false s (loadEffect .word scc rd (absAddr s rs1 s2) s)

/-- `ldrw`: word, PC-relative (R204). -/
def execLdrw (scc : Bool) (rd : RegName) (imm19 : BitVec 19) (s : State) : Result :=
  conclude scc false s (loadEffect .word scc rd (relAddr s imm19) s)

/-- `lxhu`: unsigned half word, absolute (R205). -/
def execLxhu (scc : Bool) (rd rs1 : RegName) (s2 : Src2) (s : State) : Result :=
  conclude scc false s (loadEffect .halfU scc rd (absAddr s rs1 s2) s)

/-- `lrhu`: unsigned half word, PC-relative (R206). -/
def execLrhu (scc : Bool) (rd : RegName) (imm19 : BitVec 19) (s : State) : Result :=
  conclude scc false s (loadEffect .halfU scc rd (relAddr s imm19) s)

/-- `lxhs`: signed half word, absolute (R207). -/
def execLxhs (scc : Bool) (rd rs1 : RegName) (s2 : Src2) (s : State) : Result :=
  conclude scc false s (loadEffect .halfS scc rd (absAddr s rs1 s2) s)

/-- `lrhs`: signed half word, PC-relative (R208). -/
def execLrhs (scc : Bool) (rd : RegName) (imm19 : BitVec 19) (s : State) : Result :=
  conclude scc false s (loadEffect .halfS scc rd (relAddr s imm19) s)

/-- `lxbu`: unsigned byte, absolute (R209). -/
def execLxbu (scc : Bool) (rd rs1 : RegName) (s2 : Src2) (s : State) : Result :=
  conclude scc false s (loadEffect .byteU scc rd (absAddr s rs1 s2) s)

/-- `lrbu`: unsigned byte, PC-relative (R210). -/
def execLrbu (scc : Bool) (rd : RegName) (imm19 : BitVec 19) (s : State) : Result :=
  conclude scc false s (loadEffect .byteU scc rd (relAddr s imm19) s)

/-- `lxbs`: signed byte, absolute (R211). -/
def execLxbs (scc : Bool) (rd rs1 : RegName) (s2 : Src2) (s : State) : Result :=
  conclude scc false s (loadEffect .byteS scc rd (absAddr s rs1 s2) s)

/-- `lrbs`: signed byte, PC-relative (R212). -/
def execLrbs (scc : Bool) (rd : RegName) (imm19 : BitVec 19) (s : State) : Result :=
  conclude scc false s (loadEffect .byteS scc rd (relAddr s imm19) s)

end Sys2Proof.Machine
end

