-- ==== Sys2Proof/Machine/ShiftLogic.lean ====
section
/-! DEFINITION. `sll srl sra ldhi and or xor` (R160 to R168). -/

namespace Sys2Proof.Machine

/-- `x[rd] <- res; SetLogicFlags(res)` (R160). -/
def logicResult (scc : Bool) (rd : RegName) (res : Word) (s : State) : Effect :=
  .done ((s.writeX rd res).writeFlags scc (logicFlags res)) .seq

/-- `sll` (R161). -/
def execSll (scc : Bool) (rd rs1 : RegName) (s2 : Src2) (s : State) : Result :=
  conclude scc false s (logicResult scc rd (s.x rs1 <<< shiftCount (src2 s s2)) s)

/-- `srl` (R162). -/
def execSrl (scc : Bool) (rd rs1 : RegName) (s2 : Src2) (s : State) : Result :=
  conclude scc false s (logicResult scc rd (s.x rs1 >>> shiftCount (src2 s s2)) s)

/-- `sra` (R163). -/
def execSra (scc : Bool) (rd rs1 : RegName) (s2 : Src2) (s : State) : Result :=
  conclude scc false s (logicResult scc rd ((s.x rs1).sshiftRight (shiftCount (src2 s s2))) s)

/-- `ldhi` (R164). -/
def execLdhi (scc : Bool) (rd : RegName) (imm19 : BitVec 19) (s : State) : Result :=
  conclude scc false s (logicResult scc rd (highImm imm19) s)

/-- `and` (R165). -/
def execAnd (scc : Bool) (rd rs1 : RegName) (s2 : Src2) (s : State) : Result :=
  conclude scc false s (logicResult scc rd (s.x rs1 &&& src2 s s2) s)

/-- `or` (R166). -/
def execOr (scc : Bool) (rd rs1 : RegName) (s2 : Src2) (s : State) : Result :=
  conclude scc false s (logicResult scc rd (s.x rs1 ||| src2 s s2) s)

/-- `xor` (R167). -/
def execXor (scc : Bool) (rd rs1 : RegName) (s2 : Src2) (s : State) : Result :=
  conclude scc false s (logicResult scc rd (s.x rs1 ^^^ src2 s s2) s)

end Sys2Proof.Machine
end

