-- ==== Sys2Proof/Machine/Stores.lean ====
section
/-! DEFINITION. The six stores (R220 to R227). -/

namespace Sys2Proof.Machine

/-- The access of a store (R220): the alignment trap, then the low bytes of `x[rd]` to memory. `after` is the flag
write of the form (R227). -/
def storeEffect (w : Width) (rd : RegName) (ea : Word) (after : State → State) (s : State) : Effect :=
  if misaligned w ea then .trap .misalignedData
  else .done (after { s with mem := busWrite s w ea (s.x rd) }) .seq

/-- The flags of an `x`-form store (R227): from the whole data register. -/
def absStoreFlags (scc : Bool) (data : Word) (s : State) : State := s.writeFlags scc (logicFlags data)

/-- The flags of an `r`-form store (R227): with SCC = 1, `Z` and `N` are 0, `V` and `C` are free values. -/
def relStoreAfter (scc : Bool) (s : State) : State :=
  if scc then (s.writeFlags true (relStoreFlags s.draws)).useDraws 2 else s

/-- An `x`-form store (R220): only the immediate offset has a meaning. -/
def absStore (w : Width) (scc : Bool) (rd rs1 : RegName) (s2 : Src2) (s : State) : Effect :=
  match s2 with
  | .reg _ => .refuse (s.refusal .storeRegisterOffset)
  | .imm imm13 => storeEffect w rd (absAddr s rs1 (.imm imm13)) (absStoreFlags scc (s.x rd)) s

/-- An `r`-form store (R220). -/
def relStore (w : Width) (scc : Bool) (rd : RegName) (imm19 : BitVec 19) (s : State) : Effect :=
  storeEffect w rd (relAddr s imm19) (relStoreAfter scc) s

/-- `stxw`: word, absolute (R221). -/
def execStxw (scc : Bool) (rd rs1 : RegName) (s2 : Src2) (s : State) : Result :=
  conclude scc false s (absStore .word scc rd rs1 s2 s)

/-- `strw`: word, PC-relative (R222). -/
def execStrw (scc : Bool) (rd : RegName) (imm19 : BitVec 19) (s : State) : Result :=
  conclude scc false s (relStore .word scc rd imm19 s)

/-- `stxh`: half word, absolute (R223). -/
def execStxh (scc : Bool) (rd rs1 : RegName) (s2 : Src2) (s : State) : Result :=
  conclude scc false s (absStore .half scc rd rs1 s2 s)

/-- `strh`: half word, PC-relative (R224). -/
def execStrh (scc : Bool) (rd : RegName) (imm19 : BitVec 19) (s : State) : Result :=
  conclude scc false s (relStore .half scc rd imm19 s)

/-- `stxb`: byte, absolute (R225). -/
def execStxb (scc : Bool) (rd rs1 : RegName) (s2 : Src2) (s : State) : Result :=
  conclude scc false s (absStore .byte scc rd rs1 s2 s)

/-- `strb`: byte, PC-relative (R226). -/
def execStrb (scc : Bool) (rd : RegName) (imm19 : BitVec 19) (s : State) : Result :=
  conclude scc false s (relStore .byte scc rd imm19 s)

end Sys2Proof.Machine
end

