-- ==== Sys2Proof/Machine/System.lean ====
section
/-! DEFINITION. `calli getlpc putpsw reti getpsw` (R120 to R125). -/

namespace Sys2Proof.Machine

/-- `calli` (R121): `LSTPC` to `rd` of the NEW window, `PC` set at once, no delay slot; `I`, `S`, `P` unchanged. -/
def execCalli (scc : Bool) (rd : RegName) (s : State) : Result :=
  conclude scc true s
    (privileged s
      (windowCheckCall s (callWindow s.psw.cwp)
        (.done ((s.setCwp (callWindow s.psw.cwp)).writeX rd s.lstpc) (.pcset trapVector))))

/-- The flags of `getlpc`: `Z` and `N` of the value, `V` and `C` kept (R122). -/
def getlpcFlags (q : Psw) (v : Word) : Flags := ⟨v == 0, signBit v, q.v, q.c⟩

/-- `getlpc` (R122). -/
def execGetlpc (scc : Bool) (rd : RegName) (s : State) : Result :=
  conclude scc false s
    (privileged s (.done ((s.writeX rd s.lstpc).writeFlags scc (getlpcFlags s.psw s.lstpc)) .seq))

/-- `putpsw` (R123): bits 12:0 of the sum become the status word after the next instruction (R46). -/
def execPutpsw (scc : Bool) (rs1 : RegName) (s2 : Src2) (s : State) : Result :=
  conclude scc true s
    (if scc then .refuse (s.refusal .putpswWithScc)
     else
      privileged s
        (.done { s with pswNext := some (pswOfBits ((s.x rs1 + src2 s s2).extractLsb' 0 13)) } .seq))

/-- `reti` (R124): everything only if the condition holds; registers read in the old window; SCC ignored. -/
def execReti (scc : Bool) (c : Cond) (rs1 : RegName) (s2 : Src2) (s : State) : Result :=
  conclude scc true s
    (privileged s
      (whenCond c s
        (alignedTarget (absAddr s rs1 s2)
          (windowCheckReturn s (returnWindow s.psw.cwp)
            (.done (returnFromTrap s) (.jump (absAddr s rs1 s2)))))))

/-- The low four bits `getpsw` reads: the flags, or a free value while the flags of the instruction before are still
on their way to the status word (R285). -/
def getpswLow (s : State) : BitVec 4 := if s.prevScc then Config.draw 4 s.draws else (pswBits s.psw).extractLsb' 0 4

/-- The value of `getpsw`: nineteen ones above the 13 bits of the status word in effect (R125). -/
def getpswValue (s : State) : Word := (-1#19) ++ (pswBits s.psw).extractLsb' 4 9 ++ getpswLow s

/-- The flags of `getpsw` (R125). -/
def getpswFlags (v : Word) : Flags := logicFlags v

/-- One free value is used when the low four bits were one (R285). -/
def getpswDraws (s : State) : Nat := if s.prevScc then 1 else 0

/-- `getpsw` (R125): "`shortSource2` MUST be register 0 (and NOT an immediate)"; either mode. -/
def execGetpsw (scc : Bool) (rd : RegName) (s2 : Src2) (s : State) : Result :=
  conclude scc false s
    (if s2 = .reg 0 then
      .done (((s.writeX rd (getpswValue s)).writeFlags scc (getpswFlags (getpswValue s))).useDraws (getpswDraws s)) .seq
     else .refuse (s.refusal .getpswOperand))

end Sys2Proof.Machine
end

