-- ==== Sys2Proof/Machine/Dispatch.lean ====
section
/-! DEFINITION. `exec`: one arm per instruction, each one call of its meaning. -/

namespace Sys2Proof.Machine

def exec (i : Instr) (s : State) : Host.Outcome State Fault Refusal :=
  match i with
  | .calli scc rd => Sys2Proof.Machine.execCalli scc rd s
  | .getpsw scc rd s2 => Sys2Proof.Machine.execGetpsw scc rd s2 s
  | .getlpc scc rd => Sys2Proof.Machine.execGetlpc scc rd s
  | .putpsw scc rs1 s2 => Sys2Proof.Machine.execPutpsw scc rs1 s2 s
  | .callx scc rd rs1 s2 => Sys2Proof.Machine.execCallx scc rd rs1 s2 s
  | .callr scc rd imm19 => Sys2Proof.Machine.execCallr scc rd imm19 s
  | .jmpx scc cond rs1 s2 => Sys2Proof.Machine.execJmpx scc cond rs1 s2 s
  | .jmpr scc cond imm19 => Sys2Proof.Machine.execJmpr scc cond imm19 s
  | .ret scc cond rs1 s2 => Sys2Proof.Machine.execRet scc cond rs1 s2 s
  | .reti scc cond rs1 s2 => Sys2Proof.Machine.execReti scc cond rs1 s2 s
  | .sll scc rd rs1 s2 => Sys2Proof.Machine.execSll scc rd rs1 s2 s
  | .sra scc rd rs1 s2 => Sys2Proof.Machine.execSra scc rd rs1 s2 s
  | .srl scc rd rs1 s2 => Sys2Proof.Machine.execSrl scc rd rs1 s2 s
  | .ldhi scc rd imm19 => Sys2Proof.Machine.execLdhi scc rd imm19 s
  | .and scc rd rs1 s2 => Sys2Proof.Machine.execAnd scc rd rs1 s2 s
  | .or scc rd rs1 s2 => Sys2Proof.Machine.execOr scc rd rs1 s2 s
  | .xor scc rd rs1 s2 => Sys2Proof.Machine.execXor scc rd rs1 s2 s
  | .add scc rd rs1 s2 => Sys2Proof.Machine.execAdd scc rd rs1 s2 s
  | .addc scc rd rs1 s2 => Sys2Proof.Machine.execAddc scc rd rs1 s2 s
  | .sub scc rd rs1 s2 => Sys2Proof.Machine.execSub scc rd rs1 s2 s
  | .subc scc rd rs1 s2 => Sys2Proof.Machine.execSubc scc rd rs1 s2 s
  | .subi scc rd rs1 s2 => Sys2Proof.Machine.execSubi scc rd rs1 s2 s
  | .subci scc rd rs1 s2 => Sys2Proof.Machine.execSubci scc rd rs1 s2 s
  | .ldxw scc rd rs1 s2 => Sys2Proof.Machine.execLdxw scc rd rs1 s2 s
  | .ldrw scc rd imm19 => Sys2Proof.Machine.execLdrw scc rd imm19 s
  | .lxhu scc rd rs1 s2 => Sys2Proof.Machine.execLxhu scc rd rs1 s2 s
  | .lrhu scc rd imm19 => Sys2Proof.Machine.execLrhu scc rd imm19 s
  | .lxhs scc rd rs1 s2 => Sys2Proof.Machine.execLxhs scc rd rs1 s2 s
  | .lrhs scc rd imm19 => Sys2Proof.Machine.execLrhs scc rd imm19 s
  | .lxbu scc rd rs1 s2 => Sys2Proof.Machine.execLxbu scc rd rs1 s2 s
  | .lrbu scc rd imm19 => Sys2Proof.Machine.execLrbu scc rd imm19 s
  | .lxbs scc rd rs1 s2 => Sys2Proof.Machine.execLxbs scc rd rs1 s2 s
  | .lrbs scc rd imm19 => Sys2Proof.Machine.execLrbs scc rd imm19 s
  | .stxw scc rd rs1 s2 => Sys2Proof.Machine.execStxw scc rd rs1 s2 s
  | .strw scc rd imm19 => Sys2Proof.Machine.execStrw scc rd imm19 s
  | .stxh scc rd rs1 s2 => Sys2Proof.Machine.execStxh scc rd rs1 s2 s
  | .strh scc rd imm19 => Sys2Proof.Machine.execStrh scc rd imm19 s
  | .stxb scc rd rs1 s2 => Sys2Proof.Machine.execStxb scc rd rs1 s2 s
  | .strb scc rd imm19 => Sys2Proof.Machine.execStrb scc rd imm19 s

end Sys2Proof.Machine
end

