-- ==== Sys2Proof/Machine/Fetch.lean ====
section
/-! DEFINITION. What a step does around `exec` (R282 sub-steps 1 to 4): the input `IRQ`, the fetch, the decoding. -/

namespace Sys2Proof.Machine

/-- This step's `IRQ` bit (R247): the next given one, or a free value (assumption 10). -/
def irqNow (s : State) : Bool := s.irq.headD (Config.irqAt s.steps)

/-- The state with this step's `IRQ` bit consumed. -/
def sampleIrq (s : State) : State := { s with irq := s.irq.tail, steps := s.steps + 1 }

/-- Whether the step takes the interrupt: `IRQ = 1`, `I = 1` and no `putpsw` pending (R247, R282 sub-step 1). -/
def interruptAccepted (s : State) : Bool := s.psw.i && s.pswNext.isNone && irqNow s

/-- The fetch, `MemRead(PC, 4)` (R63, R66, R282 sub-step 2). -/
def fetch (s : State) : Except Fault Word :=
  if misaligned .word s.pc then .error (.misalignedFetch s.pc)
  else .ok (fetchedWord s)

/-- Sub-steps 2 to 8 of R282: fetch, decode, execute. -/
def runInstruction (s : State) : Result :=
  match fetch s with
  | .error f => .fault f
  | .ok w =>
    match decodeWith s.params.opcodeMap w with
    | .error _ => .refused (.unassignedOpcode w s.pc)
    | .ok i => exec i s

/-- One step (R282). -/
def stepOf (s : State) : Result :=
  if interruptAccepted s then .next (trapEntry (sampleIrq s)) else runInstruction (sampleIrq s)

/-- `s` with the word `w` stored at `PC` in the machine's byte order, and, where an interrupt could displace the
instruction, this step's `IRQ` bit given as 0 (assumption 33). -/
def placeWord (s : State) (w : Word) : State :=
  { s with
    mem := memWrite s.params.endian s.mem .word s.pc w
    irq := if s.psw.i && s.pswNext.isNone then false :: s.irq.tail else s.irq }

end Sys2Proof.Machine
end

