-- ==== Sys2Proof/Machine/Step.lean ====
section
/-! DEFINITION. The step of the machine (R282), and a word placed where it fetches. -/

namespace Sys2Proof.Machine

/-- One step of the machine (R282). -/
def step (s : State) : Host.Outcome State Fault Refusal := stepOf s

/-- `s` with the instruction whose bits are `w` (bits above `nbits` zero) stored where the next step fetches. It
stands for the platform's loading of memory (R293; assumption 33). -/
def State.withFetchWord (s : State) (nbits w : Nat) : State := placeWord s (BitVec.ofNat 32 (w % 2 ^ nbits))

end Sys2Proof.Machine
end

