-- ==== Sys2Proof/Safety.lean ====
section
/-! DEFINITION. The terms claims are written in: sound states (R25, R33, R60), the end of a run (R291), what an
instruction leaves behind when it completes (R33, R46), and what a trap leaves behind (R249). They are relations
between the state before and the state after and call no meaning of an instruction. -/

namespace Sys2Proof.Machine

/-! ### Sound states -/

/-- An address divisible by 4. -/
def wordAligned (a : Word) : Bool := a.extractLsb' 0 2 == 0

/-- What every step keeps: "All three must be multiples of 4" (R33), `P[0]` is never written (R25), and memory keeps
its canonical form. -/
def State.sound (s : State) : Bool :=
  wordAligned s.pc && wordAligned s.nxtpc && wordAligned s.lstpc && (s.regs[0] == 0) && s.mem.wf

/-- Parameters a machine can have: an injective `OPCODE_MAP` (R100) and an aligned `RESET_PC` (R66). -/
def admissible (p : Params) : Bool := p.opcodeMap.injective && wordAligned p.resetPc

/-- The end of a run (R291): `PC = E`, `NXTPC = E + 4`, no `putpsw` pending, and `jmpr alw, 0` at `E`. The word at `E` is
the one `mem` holds, whatever the memory map keeps there: R291 does not say which word is meant at an address that is empty
or a device (DESIGN CHOICE, assumption 42). -/
def State.ended (s : State) : Bool :=
  (s.nxtpc == s.pc + 4) && s.pswNext.isNone &&
    (readWord s.params.endian s.mem s.pc == encodeWith s.params.opcodeMap (.jmpr false .alw 0))

/-! ### Memory as claims read it -/

/-- The number the bytes of a list denote, the first byte the most significant. -/
def bytesNat (bs : List Byte) : Nat := bs.foldl (fun acc b => acc * 256 + b.toNat) 0

/-- The `n` bytes of memory from address `a`, in address order. -/
def memBytes (m : Memory) (a n : Nat) : List Byte := (List.range n).map fun k => memByte m (a + k)

/-- The number the `n` bytes from `a` denote in a byte order (R61): under `big` the lowest address is the most
significant byte, under `little` the least. -/
def memNat (e : Endian) (m : Memory) (a n : Nat) : Nat :=
  match e with
  | .big => bytesNat (memBytes m a n)
  | .little => bytesNat (memBytes m a n).reverse

/-- The `n` bytes from `a` are RAM (R72): loads and stores reach memory there. -/
def plainMemory (p : Params) (a : Word) (n : Nat) : Bool :=
  (List.range n).all fun k => regionKind p (a.toNat + k) == .ram

/-- The `n` bytes from `a` are RAM or ROM (R72): a read there delivers what memory holds. -/
def holdsMemory (p : Params) (a : Word) (n : Nat) : Bool :=
  (List.range n).all fun k => regionKind p (a.toNat + k) == .ram || regionKind p (a.toNat + k) == .rom

/-- The `n` bytes from `a` are empty addresses that read as `b` (R72). -/
def readsEmpty (p : Params) (a : Word) (n : Nat) (b : Byte) : Bool :=
  (List.range n).all fun k => regionKind p (a.toNat + k) == .empty b

/-- The byte that a store of the low `n` bytes of `v` puts at offset `k` from its address (R61): under `big` the most
significant byte comes first, under `little` last. -/
def storedByte (e : Endian) (n : Nat) (v : Word) (k : Nat) : Byte :=
  BitVec.ofNat 8 (v.toNat / 256 ^ (match e with | .big => n - 1 - k | .little => k))

/-- Every byte of memory reads as before. -/
def SameMemory (s t : State) : Prop := ∀ a : Nat, memByte t.mem a = memByte s.mem a

/-- Every byte of memory outside the `n` bytes from `a` reads as before. -/
def SameMemoryOutside (s t : State) (a n : Nat) : Prop :=
  ∀ b : Nat, b < a ∨ a + n ≤ b → memByte t.mem b = memByte s.mem b

/-! ### What an instruction leaves behind -/

/-- Register `i` of window `w` reads `v` (0 if it is `r0`, R25) and every name of every window that stands for another
physical register reads as before; if it is `r0`, every name does. -/
def OnlyRegister (s t : State) (w : Window) (i : RegName) (v : Word) : Prop :=
  t.xw w i = (if i = 0 then 0 else v) ∧ ∀ w' j, i = 0 ∨ phys w' j ≠ phys w i → t.xw w' j = s.xw w' j

/-- The counters advance from their values before (R33), the next instruction executed being at the old `NXTPC` and
the one after it at `nx`; inputs and parameters are unchanged, and the instruction's SCC bit is remembered (R285). -/
def Advances (s t : State) (nx : Word) (scc : Bool) : Prop :=
  t.lstpc = s.pc ∧ t.pc = s.nxtpc ∧ t.nxtpc = nx ∧ t.prevScc = scc ∧ t.irq = s.irq ∧ t.steps = s.steps ∧
    t.params = s.params

/-- The status word is `q`, or the one a `putpsw` left one step ago (R46); nothing is pending. -/
def PswAfter (s t : State) (q : Psw) : Prop := t.psw = s.pswNext.getD q ∧ t.pswNext = none

/-- A status word with given condition codes. -/
def Psw.setCodes (q : Psw) (f : Flags) : Psw := { q with z := f.z, n := f.n, v := f.v, c := f.c }

/-- The condition codes of the logic pattern for a result (R160). -/
def logicCodes (res : Word) : Flags := ⟨decide (res = 0), res.msb, false, false⟩

/-- An instruction completed in sequence: it wrote `v` to `rd` of the current window, the condition codes `f` if SCC is
1, and nothing else. -/
def RegisterResult (s t : State) (scc : Bool) (rd : RegName) (v : Word) (f : Flags) : Prop :=
  OnlyRegister s t s.psw.cwp rd v ∧ PswAfter s t (if scc then s.psw.setCodes f else s.psw) ∧ SameMemory s t ∧
    Advances s t (s.nxtpc + 4) scc

/-- An instruction completed with the next transfer to `nx`, the status word `q`, no register and no memory written. -/
def NothingWritten (s t : State) (scc : Bool) (nx : Word) (q : Psw) : Prop :=
  t.regs = s.regs ∧ PswAfter s t q ∧ SameMemory s t ∧ Advances s t nx scc

/-- What `TrapEntry` leaves behind (R249): `A = PC` in `r25` of the next lower window, `NX = NXTPC` in `LSTPC`, the
vector in `PC`, the mode saved, system mode, interrupts off, and everything else as before. That the record of the last
SCC bit is cleared is assumption 15. -/
def TrapEntered (s t : State) : Prop :=
  t.psw = { s.psw with p := s.psw.s, s := true, i := false, cwp := s.psw.cwp - 1 } ∧ t.pswNext = s.pswNext ∧
    OnlyRegister s t (s.psw.cwp - 1) 25 s.pc ∧ t.lstpc = s.nxtpc ∧ t.pc = 0x80000000 ∧ t.nxtpc = 0x80000004 ∧
    t.mem = s.mem ∧ t.irq = s.irq ∧ t.steps = s.steps ∧ t.params = s.params ∧ t.prevScc = false

/-- A trap condition is taken as a trap: no `putpsw` is pending (R249) and traps are not masked (R255). -/
def TrapsTaken (s : State) : Prop := s.pswNext = none ∧ (s.params.syncTrapsMaskedByI = true → s.psw.i = true)

/-- The word and the address a refusal names (R282 sub-step 6a); none only for an instruction without a meaning, which
no arm of `exec` is. -/
def Refusal.names : Refusal → Option (Word × Word)
  | .unassignedOpcode w pc => some (w, pc)
  | .putpswWithScc w pc => some (w, pc)
  | .getpswOperand w pc => some (w, pc)
  | .callxOperand w pc => some (w, pc)
  | .jumpWithScc w pc => some (w, pc)
  | .storeRegisterOffset w pc => some (w, pc)
  | .cond0000 w pc => some (w, pc)
  | .afterPutpsw w pc => some (w, pc)
  | .windowOverflow w pc => some (w, pc)
  | .windowUnderflow w pc => some (w, pc)
  | .trapAfterPutpsw _ w pc => some (w, pc)
  | .trapWhileMasked _ w pc => some (w, pc)
  | _ => none

/-! ### Classes of instructions -/

/-- The instructions that must not follow a `putpsw` (R284): the calls, the returns, `putpsw`, and any with SCC = 1. -/
def barredAfterPutpsw (i : Instr) : Bool :=
  i.scc || [Mnemonic.callx, .callr, .calli, .ret, .reti, .putpsw].contains i.mnemonic

/-- The privileged instructions (R120). -/
def isPrivileged (i : Instr) : Bool := [Mnemonic.calli, .getlpc, .putpsw, .reti].contains i.mnemonic

/-- The trap table of R241 in the order of R248, as a function of the instruction and the state: the cause of the trap
an instruction raises, if it raises one. The refusals of its encoding come first. -/
def trapCondition (i : Instr) (s : State) : Option Cause :=
  let taken (c : Cond) : Bool := decide (condHolds c s.psw = some true)
  let data (n : Nat) (ea : Word) : Option Cause := if ea.toNat % n = 0 then none else some .misalignedData
  let target (ea : Word) (rest : Option Cause) : Option Cause :=
    if ea.toNat % 4 = 0 then rest else some .misalignedTarget
  let window (w : Window) (c : Cause) : Option Cause :=
    if w = s.psw.swp ∧ s.params.windowCheck = .trap then some c else none
  let up : Window := s.psw.cwp + 1
  let down : Window := s.psw.cwp - 1
  match i with
  | .calli _ _ => if s.psw.s then window down .windowOverflow else some .privileged
  | .getlpc _ _ => if s.psw.s then none else some .privileged
  | .putpsw scc _ _ => if scc || s.psw.s then none else some .privileged
  | .reti _ c rs1 s2 =>
    if !s.psw.s then some .privileged
    else if taken c then target (absAddr s rs1 s2) (window up .windowUnderflow) else none
  | .ret scc c rs1 s2 =>
    if !scc && taken c then target (absAddr s rs1 s2) (window up .windowUnderflow) else none
  | .jmpx scc c rs1 s2 => if !scc && taken c then target (absAddr s rs1 s2) none else none
  | .jmpr scc c imm19 => if !scc && taken c then target (relAddr s imm19) none else none
  | .callx _ _ rs1 s2 => if s2 = .reg 0 then target (absAddr s rs1 s2) (window down .windowOverflow) else none
  | .callr _ _ imm19 => target (relAddr s imm19) (window down .windowOverflow)
  | .ldxw _ _ rs1 s2 => data 4 (absAddr s rs1 s2)
  | .lxhu _ _ rs1 s2 => data 2 (absAddr s rs1 s2)
  | .lxhs _ _ rs1 s2 => data 2 (absAddr s rs1 s2)
  | .ldrw _ _ imm19 => data 4 (relAddr s imm19)
  | .lrhu _ _ imm19 => data 2 (relAddr s imm19)
  | .lrhs _ _ imm19 => data 2 (relAddr s imm19)
  | .stxw _ _ rs1 (.imm imm13) => data 4 (absAddr s rs1 (.imm imm13))
  | .stxh _ _ rs1 (.imm imm13) => data 2 (absAddr s rs1 (.imm imm13))
  | .strw _ _ imm19 => data 4 (relAddr s imm19)
  | .strh _ _ imm19 => data 2 (relAddr s imm19)
  | _ => none

end Sys2Proof.Machine
end

