-- ==== Sys2Proof/Certificates/Slice0/Obligations.lean ====
section
/-! DEFINITION. The statements for the provers, each a `Prop` that formalises rules of spec/ over the model. -/

open Sys2Proof Sys2Proof.Machine

/-! ### Encoding (R90 to R108) -/

/-- R102, R108: under every injective opcode map, decoding the word of an instruction gives the instruction back, with
every operand at every value of its field. -/
def Obligations.DecodeInvertsEncode : Prop :=
  ∀ (m : OpcodeMap) (i : Instr), m.injective = true → decodeWith m (encodeWith m i) = .ok i

/-- R103, R93, R99, R108: a decoded word is its instruction's word but for the bits the hardware ignores. -/
def Obligations.EncodeInvertsDecodeButIgnoredBits : Prop :=
  ∀ (m : OpcodeMap) (w : Word) (i : Instr), decodeWith m w = .ok i →
    encodeWith m i = w &&& ~~~i.ignoredBits

/-- R103: changing bits that the hardware ignores does not change what a word decodes to. -/
def Obligations.IgnoredBitsDoNotDecode : Prop :=
  ∀ (m : OpcodeMap) (w x : Word) (i : Instr), decodeWith m w = .ok i →
    decodeWith m (w ^^^ (x &&& i.ignoredBits)) = .ok i

/-- R102, R105: the opcode alone selects the instruction, and a word is refused exactly if its opcode is assigned to no
mnemonic. -/
def Obligations.OpcodeAloneSelects : Prop :=
  ∀ (m : OpcodeMap) (w : Word),
    (∀ i, decodeWith m w = .ok i → m.op i.mnemonic = w.extractLsb' 25 7) ∧
    (decodeWith m w = .error (.unassignedOpcode (w.extractLsb' 25 7)) ↔ ∀ k : Mnemonic, m.op k ≠ w.extractLsb' 25 7)

/-- R105: under any opcode map `128 - 39 = 89` opcode values select no instruction. -/
def Obligations.EightyNineOpcodesUnassigned : Prop :=
  ∀ m : OpcodeMap, m.injective = true →
    ((List.range 128).filter fun n => (mnemonicOf m (BitVec.ofNat 7 n)).isNone).length = 89

/-- R108, R121, R144, R164, R205, R227: words written out from the spec's encodings of an `add`, a `calli`, a `jmpx`, a
`ldhi!`, a `lxhu` and a `strw!` decode to those instructions under the default opcode map, and the word 0 to none (R105).
The opcode numbers of the default map are assumption 1 (PRESUMED). -/
def Obligations.SampleWordsDecode : Prop :=
  decodeTableWord 32 0x30802005 = some (.add false 16 0 (.imm 5)) ∧
  decodeTableWord 32 0x02C80000 = some (.calli false 25) ∧
  decodeTableWord 32 0x18582108 = some (.jmpx false .ne 0 (.imm 0x108)) ∧
  decodeTableWord 32 0x29812345 = some (.ldhi true 16 0x12345) ∧
  decodeTableWord 32 0x508C2002 = some (.lxhu false 17 16 (.imm 2)) ∧
  decodeTableWord 32 0x6F880040 = some (.strw true 17 0x40) ∧
  decodeTableWord 32 0 = none

/-! ### State and reset -/

/-- R50, R51, R280: what reset leaves, for every choice of the parameters. -/
def Obligations.ResetLeaves : Prop :=
  ∀ p : Params,
    (State.resetWith p).pc = p.resetPc ∧ (State.resetWith p).nxtpc = p.resetPc + 4 ∧
    (State.resetWith p).psw.s = true ∧ (State.resetWith p).psw.i = false ∧ (State.resetWith p).pswNext = none ∧
    (∀ w, (State.resetWith p).xw w 0 = 0) ∧ (State.resetWith p).params = p

/-- Reset with the default parameters is sound: assumption 13 (`LSTPC` 0) and assumption 14 (memory lists nothing) are
the model's choices. -/
def Obligations.ResetSound : Prop :=
  State.reset.sound = true ∧ ∀ p : Params, admissible p = true → (State.resetWith p).sound = true

/-- R33, R25, R66: every step keeps the counters aligned, `P[0]` zero and memory canonical, and no step from such a state
stops at a misaligned `PC`. -/
def Obligations.StepKeepsSound : Prop :=
  ∀ s : State, s.sound = true →
    (∀ t, step s = .next t → t.sound = true) ∧ ∀ a, step s ≠ .fault (.misalignedFetch a)

/-- R7: no step changes the parameters. -/
def Obligations.StepKeepsParameters : Prop :=
  ∀ s t : State, step s = .next t → t.params = s.params

/-- R34: the status word's 13 bits and its fields determine each other, each field at its place. -/
def Obligations.StatusWordLayout : Prop :=
  (∀ q : Psw, pswOfBits (pswBits q) = q) ∧ (∀ b : BitVec 13, pswBits (pswOfBits b) = b) ∧
  ∀ q : Psw,
    (pswBits q).toNat = q.cwp.toNat * 1024 + q.swp.toNat * 128 + q.i.toNat * 64 + q.s.toNat * 32 + q.p.toNat * 16 +
      q.z.toNat * 8 + q.n.toNat * 4 + q.v.toNat * 2 + q.c.toNat

/-- R24: the callee's in registers are the caller's out registers, locals of different windows are distinct, globals are
the same in all windows. -/
def Obligations.WindowsOverlap : Prop :=
  (∀ (w : Window) (k : Nat), k ≤ 5 → phys (w - 1) (BitVec.ofNat 5 (26 + k)) = phys w (BitVec.ofNat 5 (10 + k))) ∧
  (∀ (w v : Window) (i j : RegName), 16 ≤ i.toNat → i.toNat ≤ 25 → phys w i = phys v j → w = v ∧ i = j) ∧
  (∀ (w v : Window) (i : RegName), i.toNat ≤ 9 → phys w i = phys v i)

/-- R25, R26: a register write is read back under every name of the same physical register, no other register changes,
and `r0` reads as zero and discards writes. -/
def Obligations.RegisterWriteThenRead : Prop :=
  ∀ (s : State) (w w' : Window) (i j : RegName) (v : Word),
    (s.writeXw w i v).xw w' j =
      if j = 0 then 0 else if i ≠ 0 ∧ phys w' j = phys w i then v else s.xw w' j

/-! ### Operands and flags -/

/-- R94, R96: the second operand of a word is `w[12:0]` sign-extended if `w[13] = 1`, its value from -4096 to 4095,
and the register `w[4:0]` of the current window if `w[13] = 0`, whatever `w[12:5]` is. -/
def Obligations.SecondOperand : Prop :=
  ∀ (s : State) (w : Word),
    (w.getLsbD 13 = true →
      (src2 s (src2Field w)).toInt = (w.extractLsb' 0 13).toInt ∧
        -4096 ≤ (src2 s (src2Field w)).toInt ∧ (src2 s (src2Field w)).toInt ≤ 4095) ∧
    (w.getLsbD 13 = false → src2 s (src2Field w) = s.xw s.psw.cwp (w.extractLsb' 0 5))

/-- R97, R79: the PC-relative address is `PC` plus the unsigned `imm19`, or the signed one under
`IMM19_REL_EXT = sign`, modulo `2^32`. -/
def Obligations.RelativeAddress : Prop :=
  ∀ (s : State) (b : BitVec 19),
    (s.params.imm19RelExt = .zero → (relAddr s b).toNat = (s.pc.toNat + b.toNat) % 2 ^ 32) ∧
    (s.params.imm19RelExt = .sign → ((relAddr s b).toNat : Int) = ((s.pc.toNat : Int) + b.toInt) % 2 ^ 32)

/-- R181: "`Sub(p, q, 0)` has the same `res`, `Cn`, `Vn` as `Add(p, ~q, 1)`"; R185: the borrow form is
`Add(p, ~q, C)`. -/
def Obligations.SubtractionIsAdditionOfComplement : Prop :=
  (∀ p q : Word, subOf p q 0 = addOf p (~~~q) 1) ∧
  ∀ (p q : Word) (c : Bool), subOf p q (subcAdjust .borrow c) = addOf p (~~~q) (carryNat c)

/-- R140, R181: after `sub! r0, a, b` the ten comparison conditions compare `a` with `b`, signed and unsigned; the other
conditions test one flag, the last always holds. -/
def Obligations.ConditionsCompare : Prop :=
  ∀ (q : Psw) (a b : Word),
    condHolds .pl q = some (!q.n) ∧ condHolds .mi q = some q.n ∧ condHolds .nv q = some (!q.v) ∧
    condHolds .v q = some q.v ∧ condHolds .alw q = some true ∧
    let f := withFlags q (arithFlags (subOf a b 0))
    condHolds .gt f = some (decide (b.toInt < a.toInt)) ∧ condHolds .le f = some (decide (a.toInt ≤ b.toInt)) ∧
    condHolds .ge f = some (decide (b.toInt ≤ a.toInt)) ∧ condHolds .lt f = some (decide (a.toInt < b.toInt)) ∧
    condHolds .hi f = some (decide (b.toNat < a.toNat)) ∧ condHolds .los f = some (decide (a.toNat ≤ b.toNat)) ∧
    condHolds .lo f = some (decide (a.toNat < b.toNat)) ∧ condHolds .his f = some (decide (b.toNat ≤ a.toNat)) ∧
    condHolds .ne f = some (decide (a ≠ b)) ∧ condHolds .eq f = some (decide (a = b))

/-! ### Memory -/

/-- R61, R62: for both byte orders and each width, an aligned `MemWrite` puts the low bytes of the value at its address,
and no other byte changes. -/
def Obligations.MemoryWriteThenRead : Prop :=
  ∀ (e : Endian) (m : Memory) (w : Width) (a v : Word), m.wf = true → a.toNat % widthBytes w = 0 →
    memNat e (memWrite e m w a v) a.toNat (widthBytes w) = v.toNat % 2 ^ (8 * widthBytes w) ∧
    ∀ b : Nat, b < a.toNat ∨ a.toNat + widthBytes w ≤ b → memByte (memWrite e m w a v) b = memByte m b

/-! ### Shifts, load-high, logic (R160 to R168) -/

/-- R161 to R163, R168: the shifts, with the count in the low five bits of `S2`, complete with the products and
quotients by `2^n`, the logic flags and nothing else written. -/
def Obligations.ShiftResults : Prop :=
  ∀ (scc : Bool) (rd rs1 : RegName) (s2 : Src2) (s : State), s.pswNext = none ∨ scc = false →
    ∀ p ∈ [((.sll scc rd rs1 s2 : Instr), BitVec.ofNat 32 ((s.x rs1).toNat * 2 ^ ((src2 s s2).toNat % 32))),
           (.srl scc rd rs1 s2, BitVec.ofNat 32 ((s.x rs1).toNat / 2 ^ ((src2 s s2).toNat % 32))),
           (.sra scc rd rs1 s2, BitVec.ofInt 32 ((s.x rs1).toInt / 2 ^ ((src2 s s2).toNat % 32)))],
      ∃ t, exec p.1 s = .next t ∧ RegisterResult s t scc rd p.2 (logicCodes p.2)

/-- R164, R165, R166, R167: `ldhi`, `and`, `or`, `xor` complete with their results, the logic flags and nothing else
written. -/
def Obligations.LogicResults : Prop :=
  ∀ (scc : Bool) (rd rs1 : RegName) (s2 : Src2) (imm19 : BitVec 19) (s : State), s.pswNext = none ∨ scc = false →
    ∀ p ∈ [((.ldhi scc rd imm19 : Instr), BitVec.ofNat 32 (imm19.toNat * 2 ^ 13)),
           (.and scc rd rs1 s2, s.x rs1 &&& src2 s s2),
           (.or scc rd rs1 s2, s.x rs1 ||| src2 s s2),
           (.xor scc rd rs1 s2, s.x rs1 ^^^ src2 s s2)],
      ∃ t, exec p.1 s = .next t ∧ RegisterResult s t scc rd p.2 (logicCodes p.2)

/-! ### Arithmetic (R180 to R189) -/

/-- R182, R183: `add` and `addc` complete with the sum modulo `2^32`, `C` the carry out of bit 31, `V` the signed
overflow, and nothing else written. -/
def Obligations.AdditionResults : Prop :=
  ∀ (scc : Bool) (rd rs1 : RegName) (s2 : Src2) (s : State), s.pswNext = none ∨ scc = false →
    ∀ p ∈ [((.add scc rd rs1 s2 : Instr), 0), (.addc scc rd rs1 s2, s.psw.c.toNat)],
      ∃ t res, exec p.1 s = .next t ∧ res.toNat = ((s.x rs1).toNat + (src2 s s2).toNat + p.2) % 2 ^ 32 ∧
        RegisterResult s t scc rd res
          ⟨decide (res = 0), res.msb,
            decide ((s.x rs1).msb = (src2 s s2).msb ∧ res.msb ≠ (s.x rs1).msb),
            decide (2 ^ 32 ≤ (s.x rs1).toNat + (src2 s s2).toNat + p.2)⟩

/-- R184, R186: `sub` and `subi` complete with the difference, `C` set exactly if there is no borrow, `V` the
signed overflow, and nothing else written. -/
def Obligations.SubtractionResults : Prop :=
  ∀ (scc : Bool) (rd rs1 : RegName) (s2 : Src2) (s : State), s.pswNext = none ∨ scc = false →
    ∀ p ∈ [((.sub scc rd rs1 s2 : Instr), s.x rs1, src2 s s2), (.subi scc rd rs1 s2, src2 s s2, s.x rs1)],
      ∃ t, exec p.1 s = .next t ∧
        RegisterResult s t scc rd (p.2.1 - p.2.2)
          ⟨decide (p.2.1 = p.2.2), (p.2.1 - p.2.2).msb,
            decide (p.2.1.msb ≠ p.2.2.msb ∧ (p.2.1 - p.2.2).msb ≠ p.2.1.msb),
            decide (p.2.2.toNat ≤ p.2.1.toNat)⟩

/-- R185, R187: `subc` and `subci` complete with the exact difference plus `C` (literal form) or `C - 1` (borrow form)
modulo `2^32`, and the flags of R181. -/
def Obligations.SubtractionWithCarryResults : Prop :=
  ∀ (scc : Bool) (rd rs1 : RegName) (s2 : Src2) (s : State), s.pswNext = none ∨ scc = false →
    ∀ p ∈ [((.subc scc rd rs1 s2 : Instr), s.x rs1, src2 s s2), (.subci scc rd rs1 s2, src2 s s2, s.x rs1)],
      ∀ e : Int, e = (s.psw.c.toNat : Int) - (if s.params.subcForm = .borrow then 1 else 0) →
        ∃ t res, exec p.1 s = .next t ∧
          (res.toNat : Int) = ((p.2.1.toNat : Int) - p.2.2.toNat + e) % 2 ^ 32 ∧
          RegisterResult s t scc rd res
            ⟨decide (res = 0), res.msb,
              decide (¬(-2 ^ 31 ≤ p.2.1.toInt - p.2.2.toInt + e ∧ p.2.1.toInt - p.2.2.toInt + e ≤ 2 ^ 31 - 1)),
              decide (0 ≤ (p.2.1.toNat : Int) - p.2.2.toNat + e)⟩

/-! ### Loads (R200 to R212) -/

/-- R200, R202, R203, R205, R207, R209, R211: the absolute loads of an aligned address complete with an extended value,
its logic flags and nothing else written. The value is that of the addressed bytes where the map keeps RAM or ROM, that
of the platform's byte where it keeps nothing (R72), and any value at a device (that it is free is assumption 8). -/
def Obligations.AbsoluteLoadResults : Prop :=
  ∀ (scc : Bool) (rd rs1 : RegName) (s2 : Src2) (s : State), s.pswNext = none ∨ scc = false →
    ∀ p ∈ [((.ldxw scc rd rs1 s2 : Instr), 4, fun v : Nat => BitVec.ofNat 32 v),
           (.lxhu scc rd rs1 s2, 2, fun v => BitVec.ofNat 32 v),
           (.lxhs scc rd rs1 s2, 2, fun v => (BitVec.ofNat 16 v).signExtend 32),
           (.lxbu scc rd rs1 s2, 1, fun v => BitVec.ofNat 32 v),
           (.lxbs scc rd rs1 s2, 1, fun v => (BitVec.ofNat 8 v).signExtend 32)],
      (s.x rs1 + src2 s s2).toNat % p.2.1 = 0 →
        ∃ t v, exec p.1 s = .next t ∧ RegisterResult s t scc rd v (logicCodes v) ∧
          (holdsMemory s.params (s.x rs1 + src2 s s2) p.2.1 = true →
            v = p.2.2 (memNat s.params.endian s.mem (s.x rs1 + src2 s s2).toNat p.2.1)) ∧
          ∀ b : Byte, readsEmpty s.params (s.x rs1 + src2 s s2) p.2.1 b = true → v = p.2.2 (bytesNat (List.replicate p.2.1 b))

/-- R201, R202, R204, R206, R208, R210, R212: the PC-relative loads of an aligned address, likewise. -/
def Obligations.RelativeLoadResults : Prop :=
  ∀ (scc : Bool) (rd : RegName) (imm19 : BitVec 19) (s : State), s.pswNext = none ∨ scc = false →
    ∀ p ∈ [((.ldrw scc rd imm19 : Instr), 4, fun v : Nat => BitVec.ofNat 32 v),
           (.lrhu scc rd imm19, 2, fun v => BitVec.ofNat 32 v),
           (.lrhs scc rd imm19, 2, fun v => (BitVec.ofNat 16 v).signExtend 32),
           (.lrbu scc rd imm19, 1, fun v => BitVec.ofNat 32 v),
           (.lrbs scc rd imm19, 1, fun v => (BitVec.ofNat 8 v).signExtend 32)],
      (relAddr s imm19).toNat % p.2.1 = 0 →
        ∃ t v, exec p.1 s = .next t ∧ RegisterResult s t scc rd v (logicCodes v) ∧
          (holdsMemory s.params (relAddr s imm19) p.2.1 = true →
            v = p.2.2 (memNat s.params.endian s.mem (relAddr s imm19).toNat p.2.1)) ∧
          ∀ b : Byte, readsEmpty s.params (relAddr s imm19) p.2.1 b = true → v = p.2.2 (bytesNat (List.replicate p.2.1 b))

/-! ### Stores (R220 to R227) -/

/-- R220, R221, R223, R225, R227: the absolute stores with an immediate offset to an aligned address complete with the
low bytes of `rd` at `x[rs1] + imm13`, the flags of the whole `rd` if SCC is 1, and nothing else written. A byte at an
address that is not RAM stays as it was (R72; assumption 8). -/
def Obligations.AbsoluteStoreResults : Prop :=
  ∀ (scc : Bool) (rd rs1 : RegName) (imm13 : BitVec 13) (s : State), s.mem.wf = true → s.pswNext = none ∨ scc = false →
    ∀ p ∈ [((.stxw scc rd rs1 (.imm imm13) : Instr), 4), (.stxh scc rd rs1 (.imm imm13), 2),
           (.stxb scc rd rs1 (.imm imm13), 1)],
      ∀ a : Nat, a = (s.x rs1 + imm13.signExtend 32).toNat → a % p.2 = 0 →
        ∃ t, exec p.1 s = .next t ∧ t.regs = s.regs ∧
          (plainMemory s.params (s.x rs1 + imm13.signExtend 32) p.2 = true →
            memNat s.params.endian t.mem a p.2 = (s.x rd).toNat % 2 ^ (8 * p.2)) ∧
          SameMemoryOutside s t a p.2 ∧
          (∀ k < p.2, memByte t.mem (a + k) =
            if regionKind s.params (a + k) = .ram then storedByte s.params.endian p.2 (s.x rd) k
            else memByte s.mem (a + k)) ∧
          PswAfter s t (if scc then s.psw.setCodes (logicCodes (s.x rd)) else s.psw) ∧
          Advances s t (s.nxtpc + 4) scc

/-- R220, R222, R224, R226, R227: the PC-relative stores to an aligned address complete with the low bytes of `rd` at
`REL`; with SCC = 1 `Z` and `N` are 0 and `V` and `C` are garbage, with SCC = 0 no flag changes. A byte at an address that
is not RAM stays as it was (R72; assumption 8). -/
def Obligations.RelativeStoreResults : Prop :=
  ∀ (scc : Bool) (rd : RegName) (imm19 : BitVec 19) (s : State), s.mem.wf = true → s.pswNext = none ∨ scc = false →
    ∀ p ∈ [((.strw scc rd imm19 : Instr), 4), (.strh scc rd imm19, 2), (.strb scc rd imm19, 1)],
      ∀ a : Nat, a = (relAddr s imm19).toNat → a % p.2 = 0 →
        ∃ t v c, exec p.1 s = .next t ∧ t.regs = s.regs ∧
          (plainMemory s.params (relAddr s imm19) p.2 = true →
            memNat s.params.endian t.mem a p.2 = (s.x rd).toNat % 2 ^ (8 * p.2)) ∧
          SameMemoryOutside s t a p.2 ∧
          (∀ k < p.2, memByte t.mem (a + k) =
            if regionKind s.params (a + k) = .ram then storedByte s.params.endian p.2 (s.x rd) k
            else memByte s.mem (a + k)) ∧
          PswAfter s t (if scc then s.psw.setCodes ⟨false, false, v, c⟩ else s.psw) ∧
          Advances s t (s.nxtpc + 4) scc

/-! ### Control transfer (R141 to R149) -/

/-- R142, R143, R27: a call to an aligned target, into a window that is not `SWP` or unchecked, completes with its own
`PC` in `rd` of the NEW window, `CWP - 1`, the delayed transfer, and nothing else written. -/
def Obligations.CallResults : Prop :=
  ∀ (rd rs1 : RegName) (imm19 : BitVec 19) (s : State), s.pswNext = none →
    (s.psw.cwp - 1 ≠ s.psw.swp ∨ s.params.windowCheck = .none) →
    ∀ p ∈ [((.callx false rd rs1 (.reg 0) : Instr), s.x rs1), (.callr false rd imm19, relAddr s imm19)],
      p.2.toNat % 4 = 0 →
        ∃ t, exec p.1 s = .next t ∧ OnlyRegister s t (s.psw.cwp - 1) rd s.pc ∧
          PswAfter s t { s.psw with cwp := s.psw.cwp - 1 } ∧ SameMemory s t ∧ Advances s t p.2 false

/-- R104's second treatment of "SCC MUST be OFF, otherwise condition codes are garbage" (D29, U1), chosen by assumption
17: a call with SCC = 1 does what the call does, and leaves four condition codes under no law. -/
def Obligations.CallWithSccLeavesCodesFree : Prop :=
  ∀ (rd rs1 : RegName) (imm19 : BitVec 19) (s : State), s.pswNext = none →
    (s.psw.cwp - 1 ≠ s.psw.swp ∨ s.params.windowCheck = .none) →
    ∀ p ∈ [((.callx true rd rs1 (.reg 0) : Instr), s.x rs1), (.callr true rd imm19, relAddr s imm19)],
      p.2.toNat % 4 = 0 →
        ∃ t f, exec p.1 s = .next t ∧ OnlyRegister s t (s.psw.cwp - 1) rd s.pc ∧
          PswAfter s t ({ s.psw with cwp := s.psw.cwp - 1 }.setCodes f) ∧ SameMemory s t ∧ Advances s t p.2 true

/-- R246: a call into window `SWP` is refused under `WINDOW_CHECK = refuse`, whether or not traps are masked, and traps
under `trap`; the same for a taken return into window `SWP` (that a call with SCC = 1 comes as far as the window check is
assumption 17, the clause of `TrapEntered` on the last SCC bit assumption 15). -/
def Obligations.WindowChecks : Prop :=
  ∀ (scc : Bool) (rd rs1 : RegName) (imm19 : BitVec 19) (c : Cond) (s2 : Src2) (s : State), s.pswNext = none →
    (s.psw.cwp - 1 = s.psw.swp → (s.x rs1).toNat % 4 = 0 → (relAddr s imm19).toNat % 4 = 0 →
      ∀ i ∈ [(.callx scc rd rs1 (.reg 0) : Instr), .callr scc rd imm19, .calli scc rd],
        (isPrivileged i = true → s.psw.s = true) →
        (s.params.windowCheck = .refuse → exec i s = .refused (.windowOverflow (fetchedWord s) s.pc)) ∧
        (s.params.windowCheck = .trap → TrapsTaken s → ∃ t, exec i s = .next t ∧ TrapEntered s t)) ∧
    (s.psw.cwp + 1 = s.psw.swp → condHolds c s.psw = some true → (s.x rs1 + src2 s s2).toNat % 4 = 0 →
      ∀ i ∈ [(.ret false c rs1 s2 : Instr), .reti scc c rs1 s2],
        (isPrivileged i = true → s.psw.s = true) →
        (s.params.windowCheck = .refuse → exec i s = .refused (.windowUnderflow (fetchedWord s) s.pc)) ∧
        (s.params.windowCheck = .trap → TrapsTaken s → ∃ t, exec i s = .next t ∧ TrapEntered s t))

/-- R144, R145, R141: a jump with SCC = 0 whose condition holds and whose target is aligned completes with the delayed
transfer, and writes nothing else. -/
def Obligations.JumpTaken : Prop :=
  ∀ (c : Cond) (rs1 : RegName) (s2 : Src2) (imm19 : BitVec 19) (s : State), condHolds c s.psw = some true →
    ∀ p ∈ [((.jmpx false c rs1 s2 : Instr), s.x rs1 + src2 s s2), (.jmpr false c imm19, relAddr s imm19)],
      p.2.toNat % 4 = 0 → ∃ t, exec p.1 s = .next t ∧ NothingWritten s t false p.2 s.psw

/-- R141, R147: a jump or return whose condition does not hold has no effect but the advance of the counters, whatever
its target. -/
def Obligations.UntakenTransferHasNoEffect : Prop :=
  ∀ (c : Cond) (rs1 : RegName) (s2 : Src2) (imm19 : BitVec 19) (scc : Bool) (s : State),
    condHolds c s.psw = some false →
    (∀ i ∈ [(.jmpx false c rs1 s2 : Instr), .jmpr false c imm19],
      ∃ t, exec i s = .next t ∧ NothingWritten s t false (s.nxtpc + 4) s.psw) ∧
    (s.pswNext = none →
      ∃ t, exec (.ret false c rs1 s2) s = .next t ∧ NothingWritten s t false (s.nxtpc + 4) s.psw) ∧
    (s.pswNext = none → s.psw.s = true →
      ∃ t, exec (.reti scc c rs1 s2) s = .next t ∧ NothingWritten s t scc (s.nxtpc + 4) s.psw)

/-- R146, R27: a taken return to an aligned target, into a window that is not `SWP` or unchecked, completes with
`CWP + 1` and the delayed transfer, and writes no register and no flag. -/
def Obligations.ReturnTaken : Prop :=
  ∀ (c : Cond) (rs1 : RegName) (s2 : Src2) (s : State), s.pswNext = none → condHolds c s.psw = some true →
    (s.psw.cwp + 1 ≠ s.psw.swp ∨ s.params.windowCheck = .none) → (s.x rs1 + src2 s s2).toNat % 4 = 0 →
      ∃ t, exec (.ret false c rs1 s2) s = .next t ∧
        NothingWritten s t false (s.x rs1 + src2 s s2) { s.psw with cwp := s.psw.cwp + 1 }

/-- R104, R140: the forbidden forms of the control transfers, the system instructions and the absolute stores are
refused by name (R104's treatment, assumption 18; condition 0000, assumption 19; that a `callx` with SCC = 1 is refused
for its second source, not for its SCC bit, assumption 17; the word named, assumption 35). -/
def Obligations.ForbiddenFormsRefused : Prop :=
  ∀ (c : Cond) (rd rs1 rs2 : RegName) (s2 : Src2) (imm19 : BitVec 19) (scc : Bool) (s : State), s.pswNext = none →
    exec (.jmpx true c rs1 s2) s = .refused (.jumpWithScc (fetchedWord s) s.pc) ∧
    exec (.jmpr true c imm19) s = .refused (.jumpWithScc (fetchedWord s) s.pc) ∧
    exec (.ret true c rs1 s2) s = .refused (.jumpWithScc (fetchedWord s) s.pc) ∧
    exec (.putpsw true rs1 s2) s = .refused (.putpswWithScc (fetchedWord s) s.pc) ∧
    (s2 ≠ .reg 0 → exec (.callx scc rd rs1 s2) s = .refused (.callxOperand (fetchedWord s) s.pc)) ∧
    (s2 ≠ .reg 0 → exec (.getpsw scc rd s2) s = .refused (.getpswOperand (fetchedWord s) s.pc)) ∧
    exec (.jmpx false .c0000 rs1 s2) s = .refused (.cond0000 (fetchedWord s) s.pc) ∧
    exec (.jmpr false .c0000 imm19) s = .refused (.cond0000 (fetchedWord s) s.pc) ∧
    exec (.ret false .c0000 rs1 s2) s = .refused (.cond0000 (fetchedWord s) s.pc) ∧
    (s.psw.s = true → exec (.reti scc .c0000 rs1 s2) s = .refused (.cond0000 (fetchedWord s) s.pc)) ∧
    exec (.stxw scc rd rs1 (.reg rs2)) s = .refused (.storeRegisterOffset (fetchedWord s) s.pc) ∧
    exec (.stxh scc rd rs1 (.reg rs2)) s = .refused (.storeRegisterOffset (fetchedWord s) s.pc) ∧
    exec (.stxb scc rd rs1 (.reg rs2)) s = .refused (.storeRegisterOffset (fetchedWord s) s.pc)

/-! ### System instructions (R120 to R125) -/

/-- R121: `calli` in system mode, into a window that is not `SWP` or unchecked, puts `LSTPC` in `rd` of the NEW window,
moves to it, and sets `PC` to the trap address at once; `I`, `S`, `P`, `SWP`, the flags and memory are unchanged whatever
SCC is (what a fetched `calli` does and `NXTPC` after it are the spec's decisions D37, D18; assumption 29). -/
def Obligations.CalliResult : Prop :=
  ∀ (scc : Bool) (rd : RegName) (s : State), s.pswNext = none → s.psw.s = true →
    (s.psw.cwp - 1 ≠ s.psw.swp ∨ s.params.windowCheck = .none) →
      ∃ t, exec (.calli scc rd) s = .next t ∧ OnlyRegister s t (s.psw.cwp - 1) rd s.lstpc ∧
        PswAfter s t { s.psw with cwp := s.psw.cwp - 1 } ∧ SameMemory s t ∧ t.lstpc = s.pc ∧
        t.pc = 0x80000000 ∧ t.nxtpc = 0x80000004 ∧ t.prevScc = scc ∧ t.irq = s.irq ∧ t.steps = s.steps ∧
        t.params = s.params

/-- R122: `getlpc` in system mode puts `LSTPC` in `rd`; with SCC = 1 it sets `Z` and `N` from it and keeps `V` and
`C`. -/
def Obligations.GetlpcResult : Prop :=
  ∀ (scc : Bool) (rd : RegName) (s : State), s.pswNext = none ∨ scc = false → s.psw.s = true →
    ∃ t, exec (.getlpc scc rd) s = .next t ∧
      RegisterResult s t scc rd s.lstpc ⟨decide (s.lstpc = 0), s.lstpc.msb, s.psw.v, s.psw.c⟩

/-- R123: `putpsw` with SCC = 0 in system mode leaves bits 12:0 of the sum pending and changes nothing else: the status
word is still the old one. -/
def Obligations.PutpswResult : Prop :=
  ∀ (rs1 : RegName) (s2 : Src2) (s : State), s.pswNext = none → s.psw.s = true →
    ∃ t q, exec (.putpsw false rs1 s2) s = .next t ∧ t.pswNext = some q ∧
      (pswBits q).toNat = ((s.x rs1).toNat + (src2 s s2).toNat) % 2 ^ 13 ∧ t.psw = s.psw ∧ t.regs = s.regs ∧
      SameMemory s t ∧ Advances s t (s.nxtpc + 4) false

/-- R252: a taken `reti` in system mode, to an aligned target, into a window that is not `SWP` or unchecked,
moves up one window, sets `I`, takes `S` from `P`, starts the delayed transfer and writes nothing else. -/
def Obligations.RetiTaken : Prop :=
  ∀ (scc : Bool) (c : Cond) (rs1 : RegName) (s2 : Src2) (s : State), s.pswNext = none → s.psw.s = true →
    condHolds c s.psw = some true → (s.psw.cwp + 1 ≠ s.psw.swp ∨ s.params.windowCheck = .none) →
    (s.x rs1 + src2 s s2).toNat % 4 = 0 →
      ∃ t, exec (.reti scc c rs1 s2) s = .next t ∧
        NothingWritten s t scc (s.x rs1 + src2 s s2)
          { s.psw with cwp := s.psw.cwp + 1, i := true, s := s.psw.p }

/-- R125: where the model's record `prevScc` says that no instruction with SCC = 1 came directly before, `getpsw` puts
nineteen ones and the status word in `rd`; with SCC = 1 the flags become Z 0, N 1, V 0, C 0. That the record is also false
at reset and right after a trap entry, so that bits 3:0 are definite there too, is assumption 15 (DEDUCED, unsafe for a
handler that begins with `getpsw`). -/
def Obligations.GetpswResult : Prop :=
  ∀ (scc : Bool) (rd : RegName) (s : State), s.pswNext = none ∨ scc = false → s.prevScc = false →
    ∃ t, exec (.getpsw scc rd (.reg 0)) s = .next t ∧
      RegisterResult s t scc rd (BitVec.ofNat 32 (0xFFFFE000 + (pswBits s.psw).toNat)) ⟨false, true, false, false⟩

/-- R285: `getpsw` directly after an instruction with SCC = 1 delivers the same bits 31:4, and bits 3:0 under no law;
the flags it sets itself are as ever (the model runs the pair, R285's first treatment: assumption 16; how it knows of the
SCC bit before: assumption 15). -/
def Obligations.GetpswAfterScc : Prop :=
  ∀ (scc : Bool) (rd : RegName) (s : State), s.pswNext = none ∨ scc = false → s.prevScc = true →
    ∃ t v, exec (.getpsw scc rd (.reg 0)) s = .next t ∧
      v.toNat / 16 = (0xFFFFE000 + (pswBits s.psw).toNat) / 16 ∧
      RegisterResult s t scc rd v ⟨false, true, false, false⟩

/-! ### Traps (R240 to R257) -/

/-- R241, R248, R249, R251: every trap condition of the table, met with no `putpsw` pending and traps not masked, is a
trap entry and has no other effect (that a call with SCC = 1 meets them is assumption 17, that `reti` with condition 0000
traps in user mode assumption 19, that the entry also clears the record of the last SCC bit assumption 15). -/
def Obligations.TrapConditionsTrap : Prop :=
  ∀ (i : Instr) (s : State) (c : Cause), TrapsTaken s → trapCondition i s = some c →
    ∃ t, exec i s = .next t ∧ TrapEntered s t

/-- R241, R33: an instruction that meets no trap condition and completes is no trap: the counters advance past it, to
the old `NXTPC` or, for `calli` alone, to the trap address (the record of the SCC bit is assumption 15; that a call with
SCC = 1 completes, assumption 17). -/
def Obligations.NoOtherTraps : Prop :=
  ∀ (i : Instr) (s t : State), trapCondition i s = none → exec i s = .next t →
    t.lstpc = s.pc ∧ t.prevScc = i.scc ∧ (t.pc = s.nxtpc ∨ (i.mnemonic = .calli ∧ t.pc = 0x80000000))

/-- R255: under `SYNC_TRAPS_MASKED_BY_I = true` a trap condition met with `I = 0` is refused (that a
call with SCC = 1 meets one is assumption 17, that `reti` with condition 0000 meets one in user mode assumption 19). -/
def Obligations.MaskedTrapRefused : Prop :=
  ∀ (i : Instr) (s : State) (c : Cause), s.pswNext = none → s.params.syncTrapsMaskedByI = true → s.psw.i = false →
    trapCondition i s = some c → exec i s = .refused (.trapWhileMasked c (fetchedWord s) s.pc)

/-- R249: a trap condition met by the instruction after a `putpsw` is refused (as that, also where traps are masked:
assumption 26). -/
def Obligations.TrapAfterPutpswRefused : Prop :=
  ∀ (i : Instr) (s : State) (c : Cause), s.pswNext.isSome = true → barredAfterPutpsw i = false →
    trapCondition i s = some c → exec i s = .refused (.trapAfterPutpsw c (fetchedWord s) s.pc)

/-- R65, R242: a load or store of a word or half word at a misaligned address traps, whatever the byte order; `rd`, the
flags and memory are unchanged (`TrapEntered`'s clause on the last SCC bit is assumption 15). -/
def Obligations.MisalignedDataTraps : Prop :=
  ∀ (scc : Bool) (rd rs1 : RegName) (s2 : Src2) (imm13 : BitVec 13) (imm19 : BitVec 19) (s : State), TrapsTaken s →
    ∀ p ∈ [((.ldxw scc rd rs1 s2 : Instr), s.x rs1 + src2 s s2, 4), (.lxhu scc rd rs1 s2, s.x rs1 + src2 s s2, 2),
           (.lxhs scc rd rs1 s2, s.x rs1 + src2 s s2, 2), (.ldrw scc rd imm19, relAddr s imm19, 4),
           (.lrhu scc rd imm19, relAddr s imm19, 2), (.lrhs scc rd imm19, relAddr s imm19, 2),
           (.stxw scc rd rs1 (.imm imm13), s.x rs1 + imm13.signExtend 32, 4),
           (.stxh scc rd rs1 (.imm imm13), s.x rs1 + imm13.signExtend 32, 2),
           (.strw scc rd imm19, relAddr s imm19, 4), (.strh scc rd imm19, relAddr s imm19, 2)],
      p.2.1.toNat % p.2.2 ≠ 0 → ∃ t, exec p.1 s = .next t ∧ TrapEntered s t

/-- R147, R243: a taken transfer to a misaligned target traps; neither `CWP`, `rd` nor `NXTPC` changes but by the
trap entry (that a call with SCC = 1 comes as far as this check is assumption 17, `TrapEntered`'s clause on the last SCC
bit assumption 15). -/
def Obligations.MisalignedTargetTraps : Prop :=
  ∀ (scc : Bool) (c : Cond) (rd rs1 : RegName) (s2 : Src2) (imm19 : BitVec 19) (s : State), TrapsTaken s →
    condHolds c s.psw = some true →
    ∀ p ∈ [((.callx scc rd rs1 (.reg 0) : Instr), s.x rs1), (.callr scc rd imm19, relAddr s imm19),
           (.jmpx false c rs1 s2, s.x rs1 + src2 s s2), (.jmpr false c imm19, relAddr s imm19),
           (.ret false c rs1 s2, s.x rs1 + src2 s s2), (.reti scc c rs1 s2, s.x rs1 + src2 s s2)],
      (isPrivileged p.1 = true → s.psw.s = true) → p.2.toNat % 4 ≠ 0 →
        ∃ t, exec p.1 s = .next t ∧ TrapEntered s t

/-- R73, R72, R105: no load, store or fetch stops the machine: with `PC` aligned no step faults, whatever the platform's
map. With no interrupt accepted a step runs what some word decodes to, or refuses that word, naming it; the word is the
platform's byte four times where the map keeps nothing at `PC`, and any word at a device (assumption 8). -/
def Obligations.NoAccessStopsTheMachine : Prop :=
  ∀ s : State, s.pc.toNat % 4 = 0 →
    (∀ f, step s ≠ .fault f) ∧
    (interruptAccepted s = false →
      ∃ w : Word, (∀ b : Byte, readsEmpty s.params s.pc 4 b = true → w = b ++ b ++ b ++ b) ∧
        (∀ i, decodeWith s.params.opcodeMap w = .ok i →
          step s = exec i { s with irq := s.irq.tail, steps := s.steps + 1 }) ∧
        ((∀ k : Mnemonic, s.params.opcodeMap.op k ≠ w.extractLsb' 25 7) →
          step s = .refused (.unassignedOpcode w s.pc)))

/-- R120, R244: a privileged instruction met with `S = 0` traps before any effect of its own (`putpsw` with SCC = 1 is
refused first, R248; that `reti` with condition 0000 traps first is assumption 19, that the entry also clears the record of
the last SCC bit assumption 15). -/
def Obligations.PrivilegedTrapsInUserMode : Prop :=
  ∀ (i : Instr) (s : State), TrapsTaken s → s.psw.s = false → isPrivileged i = true →
    (i.mnemonic = .putpsw → i.scc = false) → ∃ t, exec i s = .next t ∧ TrapEntered s t

/-- R256: an instruction other than the four privileged ones and `getpsw`, which meets no trap condition and completes
with no status word pending, does in user mode what it does in system mode; the mode is carried along. (`getpsw` delivers
the mode: GetpswResult, GetpswAfterScc; traps: TrapConditionsTrap.) The two runs start at the same counters, so they draw
the same free codes (calls and PC-relative stores with SCC = 1) and see the same answer of a device: that comparison is the
model's own, assumptions 8 and 11; that a call with SCC = 1 completes is assumption 17. -/
def Obligations.ModeMattersOnlyToPrivileged : Prop :=
  ∀ (i : Instr) (s t : State), isPrivileged i = false → i.mnemonic ≠ .getpsw → trapCondition i s = none →
    s.pswNext = none → s.psw.s = true → exec i s = .next t →
      exec i { s with psw := { s.psw with s := false } } = .next { t with psw := { t.psw with s := false } }

/-- R253, R249, R252: from the state a trap leaves, `getlpc r24`, `jmpx alw, r25, 0`, `reti alw, r24, 0` resume the
interrupted program: the counters are at the abandoned instruction and the one after it, the window and the mode are
restored, `I` is 1, memory and every register but the handler's `r24` and `r25` are as they were (the sequence is the
spec's own, R253). -/
def Obligations.TrapThenResume : Prop :=
  ∀ s t : State, TrapEntered s t → s.pswNext = none → s.pc.toNat % 4 = 0 → s.nxtpc.toNat % 4 = 0 →
    (s.psw.cwp ≠ s.psw.swp ∨ s.params.windowCheck = .none) →
    ∃ t1 t2 t3, exec (.getlpc false 24) t = .next t1 ∧ exec (.jmpx false .alw 25 (.imm 0)) t1 = .next t2 ∧
      exec (.reti false .alw 24 (.imm 0)) t2 = .next t3 ∧ t3.pc = s.pc ∧ t3.nxtpc = s.nxtpc ∧
      t3.psw = { s.psw with i := true, p := s.psw.s } ∧ t3.pswNext = none ∧ SameMemory s t3 ∧
      ∀ w j, phys w j ≠ phys (s.psw.cwp - 1) 24 → phys w j ≠ phys (s.psw.cwp - 1) 25 → t3.xw w j = s.xw w j

/-! ### The status word across instructions -/

/-- R46: whatever instruction follows a `putpsw`, when it has completed the pending status word is in effect and nothing
is pending. -/
def Obligations.PendingStatusTakesEffect : Prop :=
  ∀ (i : Instr) (s t : State) (q : Psw), s.pswNext = some q → exec i s = .next t → t.psw = q ∧ t.pswNext = none

/-- R46, R284: the instruction after a `putpsw` runs wholly under the old status word: but for the status word, it leaves
what it would leave with nothing pending. The two runs start at the same counters, so a `getpsw` draws the same free bits
and a load sees the same answer of a device: that comparison is the model's own, assumptions 8 and 11. -/
def Obligations.FollowerRunsUnderOldStatus : Prop :=
  ∀ (i : Instr) (s t : State) (q : Psw), s.pswNext = some q → exec i s = .next t →
    ∃ u, exec i { s with pswNext := none } = .next u ∧ t = { u with psw := q }

/-- R284: a call, a return, `putpsw` or an instruction with SCC = 1 directly after a `putpsw` is refused. -/
def Obligations.BarredAfterPutpswRefused : Prop :=
  ∀ (i : Instr) (s : State), s.pswNext.isSome = true → barredAfterPutpsw i = true →
    exec i s = .refused (.afterPutpsw (fetchedWord s) s.pc)

/-- R41: an instruction with SCC = 0 never changes `Z`, `N`, `V`, `C` (a pending `putpsw` apart). -/
def Obligations.SccClearKeepsCodes : Prop :=
  ∀ (i : Instr) (s t : State), i.scc = false → s.pswNext = none → exec i s = .next t →
    t.psw.z = s.psw.z ∧ t.psw.n = s.psw.n ∧ t.psw.v = s.psw.v ∧ t.psw.c = s.psw.c

/-- R36, R34: no instruction changes `SWP`: it changes only when a `putpsw` takes effect. -/
def Obligations.OnlyPutpswChangesSwp : Prop :=
  ∀ s t : State, step s = .next t → t.psw.swp = (s.pswNext.getD s.psw).swp

/-- R256, R257, R123: in user mode a step either takes a trap or an interrupt, or it leaves `S`, `I`, `P` and `SWP` as
they are and no status word pending (`TrapEntered`'s clause on the last SCC bit is assumption 15). -/
def Obligations.UserModeLeavesOnlyByTrap : Prop :=
  ∀ s t : State, s.psw.s = false → s.pswNext = none → step s = .next t →
    TrapEntered (sampleIrq s) t ∨
      (t.psw.s = false ∧ t.psw.i = s.psw.i ∧ t.psw.p = s.psw.p ∧ t.psw.swp = s.psw.swp ∧ t.pswNext = none)

/-! ### The step (R282) -/

/-- R282, R105: with no interrupt accepted and `PC` aligned in memory (RAM or ROM), the step is the execution of the
instruction that the word at `PC` decodes to, on the state with this step's `IRQ` bit consumed; a word with an unassigned
opcode is refused; and every refusal names the word and its address. -/
def Obligations.StepRunsDecodedInstruction : Prop :=
  ∀ (s : State) (w : Word), interruptAccepted s = false → s.pc.toNat % 4 = 0 → holdsMemory s.params s.pc 4 = true →
    w = BitVec.ofNat 32 (memNat s.params.endian s.mem s.pc.toNat 4) →
    (∀ i, decodeWith s.params.opcodeMap w = .ok i →
      step s = exec i { s with irq := s.irq.tail, steps := s.steps + 1 }) ∧
    ((∀ k : Mnemonic, s.params.opcodeMap.op k ≠ w.extractLsb' 25 7) → step s = .refused (.unassignedOpcode w s.pc)) ∧
    ∀ r, step s = .refused r → r.names = some (w, s.pc)

/-- R291: from the end state of a run, `jmpr alw, 0` at `PC` and `nop` after it, with interrupts disabled, two steps
complete and change no state but `LSTPC` (the inputs consumed and the model's records of the steps made and of the last
SCC bit apart): the spec's convention for the end of a program (decision D38). The map keeps memory at both addresses, so
what the end means elsewhere, assumption 42, plays no part. -/
def Obligations.EndOfRunRepeats : Prop :=
  ∀ s : State, s.sound = true → s.params.opcodeMap.injective = true → s.ended = true → s.psw.i = false →
    holdsMemory s.params s.pc 4 = true → holdsMemory s.params (s.pc + 4) 4 = true →
    memNat s.params.endian s.mem (s.pc + 4).toNat 4 =
      (encodeWith s.params.opcodeMap (.add false 0 0 (.reg 0))).toNat →
    ∃ t, step s = .next t ∧
      step t = .next { s with lstpc := s.pc + 4, irq := s.irq.tail.tail, steps := s.steps + 2, prevScc := false }

/-- R247, R282: with `IRQ = 1`, `I = 1` and no `putpsw` pending, the step performs `TrapEntry` and does not execute the
instruction at `PC`, whatever it is (how the state gives `IRQ` is assumption 10, the entry's clause on the last SCC bit
assumption 15). -/
def Obligations.InterruptAccepted : Prop :=
  ∀ s : State, irqNow s = true → s.psw.i = true → s.pswNext = none →
    ∃ t, step s = .next t ∧ TrapEntered { s with irq := s.irq.tail, steps := s.steps + 1 } t

/-- R247, R293: with `I = 0` or a `putpsw` pending, the step does not depend on `IRQ`: not on a given bit, nor on whether
one is given (assumption 10). The two steps start at the same counters, so they use the same free values: that comparison
is the model's own, assumptions 8 and 11. -/
def Obligations.MaskedInterruptInvisible : Prop :=
  ∀ (s : State) (l l' : List Bool), s.psw.i = false ∨ s.pswNext.isSome = true → l.tail = l'.tail →
    step { s with irq := l } = step { s with irq := l' }
end

