-- ==== Sys2Proof/Laws/Bits.lean ====
section
/-! SUPPORT. Alignment as arithmetic, and the bytes of a word. -/

namespace Sys2Proof.Machine

theorem low2_eq_zero (a : Word) : a.extractLsb' 0 2 = 0 ↔ a.toNat % 4 = 0 := by
  rw [← BitVec.toNat_inj]; simp

theorem low1_eq_zero (a : Word) : a.extractLsb' 0 1 = 0 ↔ a.toNat % 2 = 0 := by
  rw [← BitVec.toNat_inj]; simp

theorem wordAligned_iff (a : Word) : wordAligned a = true ↔ a.toNat % 4 = 0 := by
  rw [wordAligned, beq_iff_eq]; exact low2_eq_zero a

/-- An access is aligned exactly if its address is a multiple of its width (R64). -/
theorem misaligned_eq_false (w : Width) (a : Word) : misaligned w a = false ↔ a.toNat % widthBytes w = 0 := by
  cases w
  · simp only [misaligned, widthBytes, bne_eq_false_iff_eq]; exact low2_eq_zero a
  · simp only [misaligned, widthBytes, bne_eq_false_iff_eq]; exact low1_eq_zero a
  · simp [misaligned, widthBytes, Nat.mod_one]

theorem misaligned_eq_true (w : Width) (a : Word) : misaligned w a = true ↔ a.toNat % widthBytes w ≠ 0 := by
  rw [Ne, ← misaligned_eq_false, Bool.not_eq_false]

theorem wordAligned_add_four (a : Word) (h : wordAligned a = true) : wordAligned (a + 4) = true := by
  rw [wordAligned_iff] at h ⊢; rw [BitVec.toNat_add]; simp; omega

/-- Bytes that an aligned access reaches do not wrap (R61). -/
theorem toNat_add_of_aligned (w : Width) (a : Word) (k : Nat) (h : a.toNat % widthBytes w = 0)
    (hk : k < widthBytes w) : (a + BitVec.ofNat 32 k).toNat = a.toNat + k := by
  have := a.isLt
  cases w <;> simp only [widthBytes] at h hk <;> simp [BitVec.toNat_add] <;> omega

theorem byteOfWord_toNat (k : Nat) (v : Word) : (byteOfWord k v).toNat = v.toNat / 2 ^ (8 * k) % 256 := by
  simp [byteOfWord, Nat.shiftRight_eq_div_pow]

end Sys2Proof.Machine
end

