-- ==== Sys2Proof/Laws/Memory.lean ====
section
/-! SUPPORT. Memory: a read after a write, and the canonical form that every memory operation keeps (R60, R61). -/

namespace Sys2Proof.Machine

/-! ### One byte -/

theorem memByte_memPut_same (m : Memory) (a : Nat) (b : Byte) (lo : Nat) (h : memWfFrom lo m = true) :
    memByte (memPut m a b) a = b := by
  induction m generalizing lo with
  | nil => simp only [memPut]; split <;> simp_all [memByte]
  | cons c rest ih =>
    obtain ⟨k, v⟩ := c
    simp only [memWfFrom, Bool.and_eq_true, decide_eq_true_eq] at h
    have absent : ∀ (n : Memory) (l : Nat), memWfFrom l n = true → a < l → memByte n a = unlistedByte := by
      intro n
      induction n with
      | nil => intros; rfl
      | cons d r ihr =>
        intro l hl hlt
        simp only [memWfFrom, Bool.and_eq_true, decide_eq_true_eq] at hl
        simp only [memByte]
        rw [if_neg (by omega)]
        exact ihr _ hl.2 (by omega)
    simp only [memPut]
    split
    · split
      · rename_i hlt hb
        simp only [memByte]
        rw [if_neg (by omega), absent rest (k + 1) h.2 (by omega), hb]
      · simp [memByte]
    · split
      · split
        · rename_i heq hb
          rw [absent rest (k + 1) h.2 (by omega), hb]
        · simp [memByte]
      · simp only [memByte]
        rw [if_neg (by omega)]
        exact ih (k + 1) h.2

theorem memByte_memPut_other (m : Memory) (a a' : Nat) (b : Byte) (h : a' ≠ a) :
    memByte (memPut m a b) a' = memByte m a' := by
  induction m with
  | nil => simp only [memPut]; split <;> simp [memByte, h.symm]
  | cons c rest ih =>
    obtain ⟨k, v⟩ := c
    simp only [memPut]
    split
    · split <;> simp [memByte, h.symm]
    · split
      · rename_i heq
        subst heq
        split <;> simp [memByte, h.symm]
      · simp only [memByte]
        split
        · rfl
        · exact ih

theorem memWfFrom_memPut (m : Memory) (a lo : Nat) (b : Byte) (hm : memWfFrom lo m = true) (hlo : lo ≤ a)
    (ha : a < 2 ^ 32) : memWfFrom lo (memPut m a b) = true := by
  induction m generalizing lo with
  | nil => simp only [memPut]; split <;> simp_all [memWfFrom]
  | cons c rest ih =>
    obtain ⟨k, v⟩ := c
    simp only [memWfFrom, Bool.and_eq_true, decide_eq_true_eq] at hm
    obtain ⟨⟨⟨h1, h2⟩, h3⟩, h4⟩ := hm
    simp only [memPut]
    have weaken : ∀ (n : Memory) (l l' : Nat), l' ≤ l → memWfFrom l n = true → memWfFrom l' n = true := by
      intro n l l' hl
      cases n with
      | nil => simp [memWfFrom]
      | cons d r =>
        simp only [memWfFrom, Bool.and_eq_true, decide_eq_true_eq]
        rintro ⟨⟨⟨g1, g2⟩, g3⟩, g4⟩
        exact ⟨⟨⟨by omega, g2⟩, g3⟩, g4⟩
    split
    · split
      · simp only [memWfFrom, Bool.and_eq_true, decide_eq_true_eq]
        exact ⟨⟨⟨h1, h2⟩, h3⟩, h4⟩
      · rename_i hlt hb
        simp only [memWfFrom, Bool.and_eq_true, decide_eq_true_eq, bne_iff_ne]
        exact ⟨⟨⟨hlo, ha⟩, hb⟩, ⟨⟨by omega, h2⟩, by simpa using h3⟩, h4⟩
    · split
      · rename_i heq
        subst heq
        split
        · exact weaken rest (a + 1) lo (by omega) h4
        · rename_i hb
          simp only [memWfFrom, Bool.and_eq_true, decide_eq_true_eq, bne_iff_ne]
          exact ⟨⟨⟨h1, h2⟩, hb⟩, h4⟩
      · simp only [memWfFrom, Bool.and_eq_true, decide_eq_true_eq]
        exact ⟨⟨⟨h1, h2⟩, h3⟩, ih (k + 1) h4 (by omega)⟩

/-- Writing one byte keeps the canonical form. -/
theorem memPut_wf (m : Memory) (a : Word) (b : Byte) (h : m.wf = true) : (memPut m a.toNat b).wf = true :=
  memWfFrom_memPut m a.toNat 0 b h (Nat.zero_le _) a.isLt

/-! ### Several bytes -/

/-- A byte written where `ok` lets a write reach keeps the canonical form. -/
theorem memPut_ok_wf (ok : Nat → Bool) (m : Memory) (a : Word) (b : Byte) (h : m.wf = true) :
    Memory.wf (if ok a.toNat then memPut m a.toNat b else m) = true := by
  split
  · exact memPut_wf m a b h
  · exact h

/-- Writing bytes keeps the canonical form. -/
theorem writeBytes_wf (ok : Nat → Bool) (bs : List Byte) (m : Memory) (a : Word) (h : m.wf = true) :
    (writeBytes ok m a bs).wf = true := by
  induction bs generalizing m a with
  | nil => exact h
  | cons b rest ih => exact ih _ _ (memPut_ok_wf ok m a b h)

/-- Every memory write keeps the canonical form. -/
theorem memWrite_wf (e : Endian) (m : Memory) (w : Width) (a v : Word) (h : m.wf = true) :
    (memWrite e m w a v).wf = true :=
  writeBytes_wf _ _ m a h

/-- Every store keeps the canonical form. -/
theorem busWrite_wf (s : State) (w : Width) (a v : Word) (h : s.mem.wf = true) : (busWrite s w a v).wf = true :=
  writeBytes_wf _ _ s.mem a h

theorem memByte_writeBytes_other (ok : Nat → Bool) (bs : List Byte) (m : Memory) (a : Word) (b : Nat)
    (hfit : a.toNat + bs.length ≤ 2 ^ 32) (h : b < a.toNat ∨ a.toNat + bs.length ≤ b) :
    memByte (writeBytes ok m a bs) b = memByte m b := by
  have one : ∀ (n : Memory) (x : Word) (c : Byte), b ≠ x.toNat →
      memByte (if ok x.toNat then memPut n x.toNat c else n) b = memByte n b := by
    intro n x c hx; split
    · exact memByte_memPut_other n x.toNat b c hx
    · rfl
  induction bs generalizing m a with
  | nil => rfl
  | cons x rest ih =>
    simp only [List.length_cons] at hfit h
    simp only [writeBytes]
    by_cases hr : rest = []
    · subst hr
      exact one m a x (by simp at h; omega)
    · have hlen : 0 < rest.length := List.length_pos_iff.mpr hr
      have ha : (a + 1).toNat = a.toNat + 1 := by rw [BitVec.toNat_add]; simp; omega
      rw [ih _ (a + 1) (by omega) (by omega), one m a x (by omega)]

/-- The `k`-th byte of an access: the written one where a write reaches, else as before. -/
theorem memByte_writeBytes_at (ok : Nat → Bool) (bs : List Byte) (m : Memory) (a : Word) (k : Nat)
    (hk : k < bs.length) (hfit : a.toNat + bs.length ≤ 2 ^ 32) (h : m.wf = true) :
    memByte (writeBytes ok m a bs) (a.toNat + k) =
      if ok (a.toNat + k) then bs[k] else memByte m (a.toNat + k) := by
  have one : ∀ (n : Memory) (x : Word) (c : Byte), n.wf = true →
      memByte (if ok x.toNat then memPut n x.toNat c else n) x.toNat =
        if ok x.toNat then c else memByte n x.toNat := by
    intro n x c hn; split
    · exact memByte_memPut_same n x.toNat c 0 hn
    · rfl
  have other : ∀ (n : Memory) (x : Word) (c : Byte) (b : Nat), b ≠ x.toNat →
      memByte (if ok x.toNat then memPut n x.toNat c else n) b = memByte n b := by
    intro n x c b hx; split
    · exact memByte_memPut_other n x.toNat b c hx
    · rfl
  induction bs generalizing m a k with
  | nil => simp at hk
  | cons x rest ih =>
    simp only [List.length_cons] at hfit hk
    simp only [writeBytes]
    by_cases hr : rest = []
    · subst hr
      have : k = 0 := by simpa using hk
      subst this
      exact one m a x h
    · have hlen : 0 < rest.length := List.length_pos_iff.mpr hr
      have ha : (a + 1).toNat = a.toNat + 1 := by rw [BitVec.toNat_add]; simp; omega
      cases k with
      | zero =>
        rw [memByte_writeBytes_other ok rest _ (a + 1) _ (by omega) (by omega)]
        exact one m a x h
      | succ j =>
        have := ih _ (a + 1) j (by omega) (by omega) (memPut_ok_wf ok m a x h)
        rw [ha] at this
        rw [show a.toNat + (j + 1) = a.toNat + 1 + j by omega, this, other m a x _ (by omega)]
        rfl

theorem storeBytes_length (e : Endian) (w : Width) (v : Word) : (storeBytes e w v).length = widthBytes w := by
  cases w <;> cases e <;> rfl

/-- An aligned access does not run over the top of the address space (R61). -/
theorem access_fits (e : Endian) (w : Width) (a v : Word) (ha : a.toNat % widthBytes w = 0) :
    a.toNat + (storeBytes e w v).length ≤ 2 ^ 32 := by
  have hlt := a.isLt
  rw [storeBytes_length]; cases w <;> simp only [widthBytes] at ha ⊢ <;> omega

/-- No byte outside the access changes (R61). -/
theorem memByte_memWrite_other (e : Endian) (m : Memory) (w : Width) (a v : Word) (b : Nat)
    (ha : a.toNat % widthBytes w = 0) (h : b < a.toNat ∨ a.toNat + widthBytes w ≤ b) :
    memByte (memWrite e m w a v) b = memByte m b :=
  memByte_writeBytes_other _ _ _ _ _ (access_fits e w a v ha) (by rw [storeBytes_length]; exact h)

/-- The bytes of the access are the stored bytes in address order (R61). -/
theorem memByte_memWrite_at (e : Endian) (m : Memory) (w : Width) (a v : Word) (k : Nat) (hk : k < widthBytes w)
    (ha : a.toNat % widthBytes w = 0) (h : m.wf = true) :
    memByte (memWrite e m w a v) (a.toNat + k) =
      (storeBytes e w v)[k]'(by rw [storeBytes_length]; exact hk) :=
  memByte_writeBytes_at (fun _ => true) _ m a k _ (access_fits e w a v ha) h

/-! ### Loads and stores through the memory map (R72) -/

/-- A store changes no byte outside the access. -/
theorem memByte_busWrite_other (s : State) (w : Width) (a v : Word) (b : Nat)
    (ha : a.toNat % widthBytes w = 0) (h : b < a.toNat ∨ a.toNat + widthBytes w ≤ b) :
    memByte (busWrite s w a v) b = memByte s.mem b :=
  memByte_writeBytes_other _ _ _ _ _ (access_fits _ w a v ha) (by rw [storeBytes_length]; exact h)

/-- A store puts each of its bytes at an address that is RAM, and leaves every other address alone. -/
theorem memByte_busWrite_at (s : State) (w : Width) (a v : Word) (k : Nat) (hk : k < widthBytes w)
    (ha : a.toNat % widthBytes w = 0) (h : s.mem.wf = true) :
    memByte (busWrite s w a v) (a.toNat + k) =
      if regionKind s.params (a.toNat + k) == .ram then
        (storeBytes s.params.endian w v)[k]'(by rw [storeBytes_length]; exact hk)
      else memByte s.mem (a.toNat + k) :=
  memByte_writeBytes_at _ _ s.mem a k _ (access_fits _ w a v ha) h

/-- Where the map keeps RAM, a store is `MemWrite`. -/
theorem busWrite_plain (s : State) (w : Width) (a v : Word) (ha : a.toNat % widthBytes w = 0)
    (hp : plainMemory s.params a (widthBytes w) = true) :
    busWrite s w a v = memWrite s.params.endian s.mem w a v := by
  have hp' : ∀ k < widthBytes w, (regionKind s.params (a.toNat + k) == .ram) = true := by
    simpa only [plainMemory, List.all_eq_true, List.mem_range] using hp
  have key : ∀ (ok : Nat → Bool) (bs : List Byte) (m : Memory) (x : Word), x.toNat + bs.length ≤ 2 ^ 32 →
      (∀ k < bs.length, ok (x.toNat + k) = true) → writeBytes ok m x bs = writeBytes (fun _ => true) m x bs := by
    intro ok bs
    induction bs with
    | nil => intros; rfl
    | cons b rest ih =>
      intro m x hfit hok
      simp only [List.length_cons] at hfit hok
      have h0 := hok 0 (by omega)
      simp only [Nat.add_zero] at h0
      simp only [writeBytes, h0, if_true]
      by_cases hr : rest = []
      · subst hr; rfl
      · have hlen : 0 < rest.length := List.length_pos_iff.mpr hr
        have hx : (x + 1).toNat = x.toNat + 1 := by rw [BitVec.toNat_add]; simp; omega
        exact ih _ _ (by omega) fun k hk => by
          rw [hx, Nat.add_assoc, Nat.add_comm 1 k]; exact hok (k + 1) (by omega)
  exact key _ _ _ _ (access_fits _ w a v ha) fun k hk => hp' k (by rwa [storeBytes_length] at hk)

/-- What a read delivers from an address, by what the map keeps there. -/
theorem busByte_memory (x : Access) (s : State) (a : Word)
    (h : (regionKind s.params a.toNat == .ram || regionKind s.params a.toNat == .rom) = true) :
    busByte x s a = readByte s.mem a := by
  unfold busByte
  simp only [Bool.or_eq_true, beq_iff_eq] at h
  rcases h with h | h <;> rw [h]

theorem busByte_empty (x : Access) (s : State) (a : Word) (b : Byte) (h : regionKind s.params a.toNat = .empty b) :
    busByte x s a = b := by
  unfold busByte; rw [h]

/-- A read depends on memory, the parameters and the step's number alone. -/
theorem busByte_congr (x : Access) (s t : State) (hm : t.mem = s.mem) (hp : t.params = s.params)
    (hs : t.steps = s.steps) : busByte x t = busByte x s := by
  funext a; unfold busByte; rw [hm, hp, hs]

/-- A store depends on memory and the parameters alone. -/
theorem busWrite_congr (s t : State) (w : Width) (a v : Word) (hm : t.mem = s.mem) (hp : t.params = s.params) :
    busWrite t w a v = busWrite s w a v := by
  unfold busWrite; rw [hm, hp]

end Sys2Proof.Machine
end

