-- ==== Sys2Proof/Laws/State.lean ====
section
/-! SUPPORT. One lemma per field per update of the state, so that no proof unfolds a record update. -/

namespace Sys2Proof.Machine

/-! ### `writeXw` -/

@[simp] theorem writeXw_pc (s : State) (w : Window) (i : RegName) (v : Word) : (s.writeXw w i v).pc = s.pc := by
  unfold State.writeXw; split <;> rfl

@[simp] theorem writeXw_nxtpc (s : State) (w : Window) (i : RegName) (v : Word) :
    (s.writeXw w i v).nxtpc = s.nxtpc := by
  unfold State.writeXw; split <;> rfl

@[simp] theorem writeXw_lstpc (s : State) (w : Window) (i : RegName) (v : Word) :
    (s.writeXw w i v).lstpc = s.lstpc := by
  unfold State.writeXw; split <;> rfl

@[simp] theorem writeXw_psw (s : State) (w : Window) (i : RegName) (v : Word) : (s.writeXw w i v).psw = s.psw := by
  unfold State.writeXw; split <;> rfl

@[simp] theorem writeXw_pswNext (s : State) (w : Window) (i : RegName) (v : Word) :
    (s.writeXw w i v).pswNext = s.pswNext := by
  unfold State.writeXw; split <;> rfl

@[simp] theorem writeXw_mem (s : State) (w : Window) (i : RegName) (v : Word) : (s.writeXw w i v).mem = s.mem := by
  unfold State.writeXw; split <;> rfl

@[simp] theorem writeXw_prevScc (s : State) (w : Window) (i : RegName) (v : Word) :
    (s.writeXw w i v).prevScc = s.prevScc := by
  unfold State.writeXw; split <;> rfl

@[simp] theorem writeXw_draws (s : State) (w : Window) (i : RegName) (v : Word) :
    (s.writeXw w i v).draws = s.draws := by
  unfold State.writeXw; split <;> rfl

@[simp] theorem writeXw_irq (s : State) (w : Window) (i : RegName) (v : Word) : (s.writeXw w i v).irq = s.irq := by
  unfold State.writeXw; split <;> rfl

@[simp] theorem writeXw_steps (s : State) (w : Window) (i : RegName) (v : Word) : (s.writeXw w i v).steps = s.steps := by
  unfold State.writeXw; split <;> rfl

@[simp] theorem writeXw_params (s : State) (w : Window) (i : RegName) (v : Word) :
    (s.writeXw w i v).params = s.params := by
  unfold State.writeXw; split <;> rfl

/-! ### `writeX` -/

@[simp] theorem writeX_pc (s : State) (i : RegName) (v : Word) : (s.writeX i v).pc = s.pc := by
  unfold State.writeX State.writeXw; split <;> rfl

@[simp] theorem writeX_nxtpc (s : State) (i : RegName) (v : Word) : (s.writeX i v).nxtpc = s.nxtpc := by
  unfold State.writeX State.writeXw; split <;> rfl

@[simp] theorem writeX_lstpc (s : State) (i : RegName) (v : Word) : (s.writeX i v).lstpc = s.lstpc := by
  unfold State.writeX State.writeXw; split <;> rfl

@[simp] theorem writeX_psw (s : State) (i : RegName) (v : Word) : (s.writeX i v).psw = s.psw := by
  unfold State.writeX State.writeXw; split <;> rfl

@[simp] theorem writeX_pswNext (s : State) (i : RegName) (v : Word) : (s.writeX i v).pswNext = s.pswNext := by
  unfold State.writeX State.writeXw; split <;> rfl

@[simp] theorem writeX_mem (s : State) (i : RegName) (v : Word) : (s.writeX i v).mem = s.mem := by
  unfold State.writeX State.writeXw; split <;> rfl

@[simp] theorem writeX_prevScc (s : State) (i : RegName) (v : Word) : (s.writeX i v).prevScc = s.prevScc := by
  unfold State.writeX State.writeXw; split <;> rfl

@[simp] theorem writeX_draws (s : State) (i : RegName) (v : Word) : (s.writeX i v).draws = s.draws := by
  unfold State.writeX State.writeXw; split <;> rfl

@[simp] theorem writeX_irq (s : State) (i : RegName) (v : Word) : (s.writeX i v).irq = s.irq := by
  unfold State.writeX State.writeXw; split <;> rfl

@[simp] theorem writeX_steps (s : State) (i : RegName) (v : Word) : (s.writeX i v).steps = s.steps := by
  unfold State.writeX State.writeXw; split <;> rfl

@[simp] theorem writeX_params (s : State) (i : RegName) (v : Word) : (s.writeX i v).params = s.params := by
  unfold State.writeX State.writeXw; split <;> rfl

/-! ### `setCwp` -/

@[simp] theorem setCwp_regs (s : State) (w : Window) : (s.setCwp w).regs = s.regs := rfl

@[simp] theorem setCwp_pc (s : State) (w : Window) : (s.setCwp w).pc = s.pc := rfl

@[simp] theorem setCwp_nxtpc (s : State) (w : Window) : (s.setCwp w).nxtpc = s.nxtpc := rfl

@[simp] theorem setCwp_lstpc (s : State) (w : Window) : (s.setCwp w).lstpc = s.lstpc := rfl

@[simp] theorem setCwp_psw (s : State) (w : Window) : (s.setCwp w).psw = { s.psw with cwp := w } := rfl

@[simp] theorem setCwp_pswNext (s : State) (w : Window) : (s.setCwp w).pswNext = s.pswNext := rfl

@[simp] theorem setCwp_mem (s : State) (w : Window) : (s.setCwp w).mem = s.mem := rfl

@[simp] theorem setCwp_prevScc (s : State) (w : Window) : (s.setCwp w).prevScc = s.prevScc := rfl

@[simp] theorem setCwp_draws (s : State) (w : Window) : (s.setCwp w).draws = s.draws := rfl

@[simp] theorem setCwp_irq (s : State) (w : Window) : (s.setCwp w).irq = s.irq := rfl

@[simp] theorem setCwp_steps (s : State) (w : Window) : (s.setCwp w).steps = s.steps := rfl

@[simp] theorem setCwp_params (s : State) (w : Window) : (s.setCwp w).params = s.params := rfl

/-! ### `writeFlags` -/

@[simp] theorem writeFlags_regs (s : State) (b : Bool) (f : Flags) : (s.writeFlags b f).regs = s.regs := by
  unfold State.writeFlags; split <;> rfl

@[simp] theorem writeFlags_pc (s : State) (b : Bool) (f : Flags) : (s.writeFlags b f).pc = s.pc := by
  unfold State.writeFlags; split <;> rfl

@[simp] theorem writeFlags_nxtpc (s : State) (b : Bool) (f : Flags) : (s.writeFlags b f).nxtpc = s.nxtpc := by
  unfold State.writeFlags; split <;> rfl

@[simp] theorem writeFlags_lstpc (s : State) (b : Bool) (f : Flags) : (s.writeFlags b f).lstpc = s.lstpc := by
  unfold State.writeFlags; split <;> rfl

@[simp] theorem writeFlags_psw (s : State) (b : Bool) (f : Flags) :
    (s.writeFlags b f).psw = if b then withFlags s.psw f else s.psw := by
  unfold State.writeFlags; split <;> rfl

@[simp] theorem writeFlags_pswNext (s : State) (b : Bool) (f : Flags) : (s.writeFlags b f).pswNext = s.pswNext := by
  unfold State.writeFlags; split <;> rfl

@[simp] theorem writeFlags_mem (s : State) (b : Bool) (f : Flags) : (s.writeFlags b f).mem = s.mem := by
  unfold State.writeFlags; split <;> rfl

@[simp] theorem writeFlags_prevScc (s : State) (b : Bool) (f : Flags) : (s.writeFlags b f).prevScc = s.prevScc := by
  unfold State.writeFlags; split <;> rfl

@[simp] theorem writeFlags_draws (s : State) (b : Bool) (f : Flags) : (s.writeFlags b f).draws = s.draws := by
  unfold State.writeFlags; split <;> rfl

@[simp] theorem writeFlags_irq (s : State) (b : Bool) (f : Flags) : (s.writeFlags b f).irq = s.irq := by
  unfold State.writeFlags; split <;> rfl

@[simp] theorem writeFlags_steps (s : State) (b : Bool) (f : Flags) : (s.writeFlags b f).steps = s.steps := by
  unfold State.writeFlags; split <;> rfl

@[simp] theorem writeFlags_params (s : State) (b : Bool) (f : Flags) : (s.writeFlags b f).params = s.params := by
  unfold State.writeFlags; split <;> rfl

/-! ### `useDraws` -/

@[simp] theorem useDraws_regs (s : State) (k : Nat) : (s.useDraws k).regs = s.regs := rfl

@[simp] theorem useDraws_pc (s : State) (k : Nat) : (s.useDraws k).pc = s.pc := rfl

@[simp] theorem useDraws_nxtpc (s : State) (k : Nat) : (s.useDraws k).nxtpc = s.nxtpc := rfl

@[simp] theorem useDraws_lstpc (s : State) (k : Nat) : (s.useDraws k).lstpc = s.lstpc := rfl

@[simp] theorem useDraws_psw (s : State) (k : Nat) : (s.useDraws k).psw = s.psw := rfl

@[simp] theorem useDraws_pswNext (s : State) (k : Nat) : (s.useDraws k).pswNext = s.pswNext := rfl

@[simp] theorem useDraws_mem (s : State) (k : Nat) : (s.useDraws k).mem = s.mem := rfl

@[simp] theorem useDraws_prevScc (s : State) (k : Nat) : (s.useDraws k).prevScc = s.prevScc := rfl

@[simp] theorem useDraws_draws (s : State) (k : Nat) : (s.useDraws k).draws = s.draws + k := rfl

@[simp] theorem useDraws_irq (s : State) (k : Nat) : (s.useDraws k).irq = s.irq := rfl

@[simp] theorem useDraws_steps (s : State) (k : Nat) : (s.useDraws k).steps = s.steps := rfl

@[simp] theorem useDraws_params (s : State) (k : Nat) : (s.useDraws k).params = s.params := rfl

/-! ### `returnFromTrap` -/

@[simp] theorem returnFromTrap_regs (s : State) : (returnFromTrap s).regs = s.regs := rfl

@[simp] theorem returnFromTrap_pc (s : State) : (returnFromTrap s).pc = s.pc := rfl

@[simp] theorem returnFromTrap_nxtpc (s : State) : (returnFromTrap s).nxtpc = s.nxtpc := rfl

@[simp] theorem returnFromTrap_lstpc (s : State) : (returnFromTrap s).lstpc = s.lstpc := rfl

@[simp] theorem returnFromTrap_psw (s : State) :
    (returnFromTrap s).psw = { s.psw with cwp := returnWindow s.psw.cwp, i := true, s := s.psw.p } := rfl

@[simp] theorem returnFromTrap_pswNext (s : State) : (returnFromTrap s).pswNext = s.pswNext := rfl

@[simp] theorem returnFromTrap_mem (s : State) : (returnFromTrap s).mem = s.mem := rfl

@[simp] theorem returnFromTrap_prevScc (s : State) : (returnFromTrap s).prevScc = s.prevScc := rfl

@[simp] theorem returnFromTrap_draws (s : State) : (returnFromTrap s).draws = s.draws := rfl

@[simp] theorem returnFromTrap_irq (s : State) : (returnFromTrap s).irq = s.irq := rfl

@[simp] theorem returnFromTrap_steps (s : State) : (returnFromTrap s).steps = s.steps := rfl

@[simp] theorem returnFromTrap_params (s : State) : (returnFromTrap s).params = s.params := rfl

/-! ### `sampleIrq` -/

@[simp] theorem sampleIrq_regs (s : State) : (sampleIrq s).regs = s.regs := rfl

@[simp] theorem sampleIrq_pc (s : State) : (sampleIrq s).pc = s.pc := rfl

@[simp] theorem sampleIrq_nxtpc (s : State) : (sampleIrq s).nxtpc = s.nxtpc := rfl

@[simp] theorem sampleIrq_lstpc (s : State) : (sampleIrq s).lstpc = s.lstpc := rfl

@[simp] theorem sampleIrq_psw (s : State) : (sampleIrq s).psw = s.psw := rfl

@[simp] theorem sampleIrq_pswNext (s : State) : (sampleIrq s).pswNext = s.pswNext := rfl

@[simp] theorem sampleIrq_mem (s : State) : (sampleIrq s).mem = s.mem := rfl

@[simp] theorem sampleIrq_prevScc (s : State) : (sampleIrq s).prevScc = s.prevScc := rfl

@[simp] theorem sampleIrq_draws (s : State) : (sampleIrq s).draws = s.draws := rfl

@[simp] theorem sampleIrq_irq (s : State) : (sampleIrq s).irq = s.irq.tail := rfl

@[simp] theorem sampleIrq_steps (s : State) : (sampleIrq s).steps = s.steps + 1 := rfl

@[simp] theorem sampleIrq_params (s : State) : (sampleIrq s).params = s.params := rfl

/-! ### `trapEntry` -/

@[simp] theorem trapEntry_regs (s : State) :
    (trapEntry s).regs = (s.writeXw (callWindow s.psw.cwp) trapReg s.pc).regs := rfl

@[simp] theorem trapEntry_pc (s : State) : (trapEntry s).pc = trapVector := rfl

@[simp] theorem trapEntry_nxtpc (s : State) : (trapEntry s).nxtpc = trapVector + 4 := rfl

@[simp] theorem trapEntry_lstpc (s : State) : (trapEntry s).lstpc = s.nxtpc := rfl

@[simp] theorem trapEntry_psw (s : State) :
    (trapEntry s).psw = { s.psw with p := s.psw.s, s := true, i := false, cwp := callWindow s.psw.cwp } := rfl

@[simp] theorem trapEntry_pswNext (s : State) : (trapEntry s).pswNext = s.pswNext := by simp [trapEntry]

@[simp] theorem trapEntry_mem (s : State) : (trapEntry s).mem = s.mem := by simp [trapEntry]

@[simp] theorem trapEntry_prevScc (s : State) : (trapEntry s).prevScc = false := rfl

@[simp] theorem trapEntry_draws (s : State) : (trapEntry s).draws = s.draws := by simp [trapEntry]

@[simp] theorem trapEntry_irq (s : State) : (trapEntry s).irq = s.irq := by simp [trapEntry]

@[simp] theorem trapEntry_steps (s : State) : (trapEntry s).steps = s.steps := by simp [trapEntry]

@[simp] theorem trapEntry_params (s : State) : (trapEntry s).params = s.params := by simp [trapEntry]

/-! ### `callFlags` -/

@[simp] theorem callFlags_regs (s : State) (b : Bool) : (callFlags b s).regs = s.regs := by
  unfold callFlags; split <;> rfl

@[simp] theorem callFlags_pc (s : State) (b : Bool) : (callFlags b s).pc = s.pc := by
  unfold callFlags; split <;> rfl

@[simp] theorem callFlags_nxtpc (s : State) (b : Bool) : (callFlags b s).nxtpc = s.nxtpc := by
  unfold callFlags; split <;> rfl

@[simp] theorem callFlags_lstpc (s : State) (b : Bool) : (callFlags b s).lstpc = s.lstpc := by
  unfold callFlags; split <;> rfl

@[simp] theorem callFlags_psw (s : State) (b : Bool) :
    (callFlags b s).psw = if b then withFlags s.psw (garbageFlags s.draws) else s.psw := by
  unfold callFlags; split <;> rfl

@[simp] theorem callFlags_pswNext (s : State) (b : Bool) : (callFlags b s).pswNext = s.pswNext := by
  unfold callFlags; split <;> rfl

@[simp] theorem callFlags_mem (s : State) (b : Bool) : (callFlags b s).mem = s.mem := by
  unfold callFlags; split <;> rfl

@[simp] theorem callFlags_prevScc (s : State) (b : Bool) : (callFlags b s).prevScc = s.prevScc := by
  unfold callFlags; split <;> rfl

@[simp] theorem callFlags_draws (s : State) (b : Bool) :
    (callFlags b s).draws = if b then s.draws + 1 else s.draws := by
  unfold callFlags; split <;> rfl

@[simp] theorem callFlags_irq (s : State) (b : Bool) : (callFlags b s).irq = s.irq := by
  unfold callFlags; split <;> rfl

@[simp] theorem callFlags_steps (s : State) (b : Bool) : (callFlags b s).steps = s.steps := by
  unfold callFlags; split <;> rfl

@[simp] theorem callFlags_params (s : State) (b : Bool) : (callFlags b s).params = s.params := by
  unfold callFlags; split <;> rfl

/-! ### `absStoreFlags` -/

@[simp] theorem absStoreFlags_regs (s : State) (b : Bool) (v : Word) : (absStoreFlags b v s).regs = s.regs := by
  unfold absStoreFlags State.writeFlags; split <;> rfl

@[simp] theorem absStoreFlags_pc (s : State) (b : Bool) (v : Word) : (absStoreFlags b v s).pc = s.pc := by
  unfold absStoreFlags State.writeFlags; split <;> rfl

@[simp] theorem absStoreFlags_nxtpc (s : State) (b : Bool) (v : Word) : (absStoreFlags b v s).nxtpc = s.nxtpc := by
  unfold absStoreFlags State.writeFlags; split <;> rfl

@[simp] theorem absStoreFlags_lstpc (s : State) (b : Bool) (v : Word) : (absStoreFlags b v s).lstpc = s.lstpc := by
  unfold absStoreFlags State.writeFlags; split <;> rfl

@[simp] theorem absStoreFlags_psw (s : State) (b : Bool) (v : Word) :
    (absStoreFlags b v s).psw = if b then withFlags s.psw (logicFlags v) else s.psw := by
  unfold absStoreFlags State.writeFlags; split <;> rfl

@[simp] theorem absStoreFlags_pswNext (s : State) (b : Bool) (v : Word) :
    (absStoreFlags b v s).pswNext = s.pswNext := by
  unfold absStoreFlags State.writeFlags; split <;> rfl

@[simp] theorem absStoreFlags_mem (s : State) (b : Bool) (v : Word) : (absStoreFlags b v s).mem = s.mem := by
  unfold absStoreFlags State.writeFlags; split <;> rfl

@[simp] theorem absStoreFlags_prevScc (s : State) (b : Bool) (v : Word) :
    (absStoreFlags b v s).prevScc = s.prevScc := by
  unfold absStoreFlags State.writeFlags; split <;> rfl

@[simp] theorem absStoreFlags_draws (s : State) (b : Bool) (v : Word) : (absStoreFlags b v s).draws = s.draws := by
  unfold absStoreFlags State.writeFlags; split <;> rfl

@[simp] theorem absStoreFlags_irq (s : State) (b : Bool) (v : Word) : (absStoreFlags b v s).irq = s.irq := by
  unfold absStoreFlags State.writeFlags; split <;> rfl

@[simp] theorem absStoreFlags_steps (s : State) (b : Bool) (v : Word) : (absStoreFlags b v s).steps = s.steps := by
  unfold absStoreFlags State.writeFlags; split <;> rfl

@[simp] theorem absStoreFlags_params (s : State) (b : Bool) (v : Word) : (absStoreFlags b v s).params = s.params := by
  unfold absStoreFlags State.writeFlags; split <;> rfl

/-! ### `relStoreAfter` -/

@[simp] theorem relStoreAfter_regs (s : State) (b : Bool) : (relStoreAfter b s).regs = s.regs := by
  unfold relStoreAfter; split <;> rfl

@[simp] theorem relStoreAfter_pc (s : State) (b : Bool) : (relStoreAfter b s).pc = s.pc := by
  unfold relStoreAfter; split <;> rfl

@[simp] theorem relStoreAfter_nxtpc (s : State) (b : Bool) : (relStoreAfter b s).nxtpc = s.nxtpc := by
  unfold relStoreAfter; split <;> rfl

@[simp] theorem relStoreAfter_lstpc (s : State) (b : Bool) : (relStoreAfter b s).lstpc = s.lstpc := by
  unfold relStoreAfter; split <;> rfl

@[simp] theorem relStoreAfter_psw (s : State) (b : Bool) :
    (relStoreAfter b s).psw = if b then withFlags s.psw (relStoreFlags s.draws) else s.psw := by
  unfold relStoreAfter; split <;> rfl

@[simp] theorem relStoreAfter_pswNext (s : State) (b : Bool) : (relStoreAfter b s).pswNext = s.pswNext := by
  unfold relStoreAfter; split <;> rfl

@[simp] theorem relStoreAfter_mem (s : State) (b : Bool) : (relStoreAfter b s).mem = s.mem := by
  unfold relStoreAfter; split <;> rfl

@[simp] theorem relStoreAfter_prevScc (s : State) (b : Bool) : (relStoreAfter b s).prevScc = s.prevScc := by
  unfold relStoreAfter; split <;> rfl

@[simp] theorem relStoreAfter_draws (s : State) (b : Bool) :
    (relStoreAfter b s).draws = if b then s.draws + 2 else s.draws := by
  unfold relStoreAfter; split <;> rfl

@[simp] theorem relStoreAfter_irq (s : State) (b : Bool) : (relStoreAfter b s).irq = s.irq := by
  unfold relStoreAfter; split <;> rfl

@[simp] theorem relStoreAfter_steps (s : State) (b : Bool) : (relStoreAfter b s).steps = s.steps := by
  unfold relStoreAfter; split <;> rfl

@[simp] theorem relStoreAfter_params (s : State) (b : Bool) : (relStoreAfter b s).params = s.params := by
  unfold relStoreAfter; split <;> rfl

/-! ### `retire` -/

@[simp] theorem retire_regs (b : Bool) (s t : State) (f : Flow) : (retire b s t f).regs = t.regs := rfl

@[simp] theorem retire_pc (b : Bool) (s t : State) (f : Flow) : (retire b s t f).pc = flowPc s f := rfl

@[simp] theorem retire_nxtpc (b : Bool) (s t : State) (f : Flow) : (retire b s t f).nxtpc = flowNxtpc s f := rfl

@[simp] theorem retire_lstpc (b : Bool) (s t : State) (f : Flow) : (retire b s t f).lstpc = s.pc := rfl

@[simp] theorem retire_psw (b : Bool) (s t : State) (f : Flow) : (retire b s t f).psw = s.pswNext.getD t.psw := rfl

@[simp] theorem retire_pswNext (b : Bool) (s t : State) (f : Flow) :
    (retire b s t f).pswNext = if s.pswNext.isSome then none else t.pswNext := rfl

@[simp] theorem retire_mem (b : Bool) (s t : State) (f : Flow) : (retire b s t f).mem = t.mem := rfl

@[simp] theorem retire_prevScc (b : Bool) (s t : State) (f : Flow) : (retire b s t f).prevScc = b := rfl

@[simp] theorem retire_draws (b : Bool) (s t : State) (f : Flow) : (retire b s t f).draws = t.draws := rfl

@[simp] theorem retire_irq (b : Bool) (s t : State) (f : Flow) : (retire b s t f).irq = t.irq := rfl

@[simp] theorem retire_steps (b : Bool) (s t : State) (f : Flow) : (retire b s t f).steps = t.steps := rfl

@[simp] theorem retire_params (b : Bool) (s t : State) (f : Flow) : (retire b s t f).params = t.params := rfl

/-! ### The counters after an instruction -/

@[simp] theorem flowPc_seq (s : State) : flowPc s .seq = s.nxtpc := rfl

@[simp] theorem flowPc_jump (s : State) (a : Word) : flowPc s (.jump a) = s.nxtpc := rfl

@[simp] theorem flowPc_pcset (s : State) (a : Word) : flowPc s (.pcset a) = a := rfl

@[simp] theorem flowNxtpc_seq (s : State) : flowNxtpc s .seq = s.nxtpc + 4 := rfl

@[simp] theorem flowNxtpc_jump (s : State) (a : Word) : flowNxtpc s (.jump a) = a := rfl

@[simp] theorem flowNxtpc_pcset (s : State) (a : Word) : flowNxtpc s (.pcset a) = a + 4 := rfl

/-! ### The condition codes of a status word -/

@[simp] theorem withFlags_z (q : Psw) (f : Flags) : (withFlags q f).z = f.z := rfl

@[simp] theorem withFlags_n (q : Psw) (f : Flags) : (withFlags q f).n = f.n := rfl

@[simp] theorem withFlags_v (q : Psw) (f : Flags) : (withFlags q f).v = f.v := rfl

@[simp] theorem withFlags_c (q : Psw) (f : Flags) : (withFlags q f).c = f.c := rfl

@[simp] theorem withFlags_cwp (q : Psw) (f : Flags) : (withFlags q f).cwp = q.cwp := rfl

@[simp] theorem withFlags_swp (q : Psw) (f : Flags) : (withFlags q f).swp = q.swp := rfl

@[simp] theorem withFlags_i (q : Psw) (f : Flags) : (withFlags q f).i = q.i := rfl

@[simp] theorem withFlags_s (q : Psw) (f : Flags) : (withFlags q f).s = q.s := rfl

@[simp] theorem withFlags_p (q : Psw) (f : Flags) : (withFlags q f).p = q.p := rfl

end Sys2Proof.Machine
end

