-- ==== Sys2Proof/Laws/Registers.lean ====
section
/-! SUPPORT. The register windows: what a register write does to a register read (R23 to R26). -/

namespace Sys2Proof.Machine

@[simp] theorem xw_r0 (s : State) (w : Window) : s.xw w 0 = 0 := rfl

theorem xw_of_ne (s : State) (w : Window) (i : RegName) (h : i ≠ 0) : s.xw w i = s.regs[(phys w i).val] := by
  rw [State.xw, if_neg h]

/-- A register read depends on the register file alone. -/
theorem xw_congr (s t : State) (w : Window) (i : RegName) (h : t.regs = s.regs) : t.xw w i = s.xw w i := by
  simp only [State.xw, h]

/-- Only `r0` stands for `P[0]` (R23). -/
theorem phys_ne_zero (w : Window) (i : RegName) (h : i ≠ 0) : (phys w i).val ≠ 0 := by
  have : i.toNat ≠ 0 := fun h0 => h (BitVec.eq_of_toNat_eq (by simpa using h0))
  unfold phys
  split
  · exact this
  · simp

theorem phys_eq_of_r0 (w w' : Window) (i j : RegName) (h : phys w i = phys w' j) (hj : j ≠ 0) : i ≠ 0 := by
  rintro rfl
  have h0 : (phys w 0).val = 0 := by simp [phys]
  exact phys_ne_zero w' j hj (by rw [← h]; exact h0)

@[simp] theorem writeXw_r0 (s : State) (w : Window) (v : Word) : s.writeXw w 0 v = s := rfl

theorem writeXw_regs_of_ne (s : State) (w : Window) (i : RegName) (v : Word) (h : i ≠ 0) :
    (s.writeXw w i v).regs = s.regs.set (phys w i).val v (phys w i).isLt := by
  rw [State.writeXw, if_neg h]

/-- A write is read back. -/
theorem xw_writeXw_same (s : State) (w : Window) (i : RegName) (v : Word) (h : i ≠ 0) :
    (s.writeXw w i v).xw w i = v := by
  rw [xw_of_ne _ _ _ h]; simp only [writeXw_regs_of_ne s w i v h]; simp

/-- A name of another physical register reads as before. -/
theorem xw_writeXw_other (s : State) (w w' : Window) (i j : RegName) (v : Word) (h : phys w' j ≠ phys w i) :
    (s.writeXw w i v).xw w' j = s.xw w' j := by
  by_cases hi : i = 0
  · subst hi; rfl
  · by_cases hj : j = 0
    · subst hj; rfl
    · rw [xw_of_ne _ _ _ hj, xw_of_ne _ _ _ hj]
      simp only [writeXw_regs_of_ne s w i v hi]
      rw [Vector.getElem_set_ne]
      exact fun hv => h (Fin.ext hv.symm)

/-- `P[0]` is never written (R25). -/
theorem writeXw_p0 (s : State) (w : Window) (i : RegName) (v : Word) : (s.writeXw w i v).regs[0] = s.regs[0] := by
  by_cases hi : i = 0
  · subst hi; rfl
  · simp only [writeXw_regs_of_ne s w i v hi]
    rw [Vector.getElem_set_ne]
    exact phys_ne_zero w i hi

/-- What a register write leaves: the relation claims are stated in. -/
theorem onlyRegister_writeXw (s : State) (w : Window) (i : RegName) (v : Word) :
    OnlyRegister s (s.writeXw w i v) w i v := by
  refine ⟨?_, ?_⟩
  · split
    · rename_i h; subst h; rfl
    · rename_i h; exact xw_writeXw_same s w i v h
  · rintro w' j (rfl | h)
    · rfl
    · exact xw_writeXw_other s w w' i j v h

/-- `OnlyRegister` depends on the register files alone. -/
theorem onlyRegister_congr (s t s' t' : State) (w : Window) (i : RegName) (v : Word) (hs : s'.regs = s.regs)
    (ht : t'.regs = t.regs) (h : OnlyRegister s t w i v) : OnlyRegister s' t' w i v := by
  refine ⟨?_, ?_⟩
  · rw [xw_congr t t' w i ht]; exact h.1
  · intro w' j hj
    rw [xw_congr t t' w' j ht, xw_congr s s' w' j hs]; exact h.2 w' j hj

/-- `xw` of `u` when its register file is `s`'s with one register written. -/
theorem onlyRegister_of_regs (s t : State) (w : Window) (i : RegName) (v : Word)
    (h : t.regs = (s.writeXw w i v).regs) : OnlyRegister s t w i v :=
  onlyRegister_congr s (s.writeXw w i v) s t w i v rfl h (onlyRegister_writeXw s w i v)

end Sys2Proof.Machine
end

