-- ==== Sys2Proof/Laws/Ops.lean ====
section
/-! SUPPORT. For each shared operation, once, everything it can do. -/

namespace Sys2Proof.Machine

/-! ### The end of an instruction -/

/-- A trap that is taken is `TrapEntry`, with nothing pending and traps not masked (R249, R255). -/
theorem raiseTrap_next (c : Cause) (s t : State) (h : raiseTrap c s = .next t) : TrapsTaken s ∧ t = trapEntry s := by
  unfold raiseTrap at h
  split at h
  · cases h
  · split at h
    · cases h
    · rename_i hp hm
      cases h
      refine ⟨⟨by simpa using hp, fun hmask => ?_⟩, rfl⟩
      simpa [hmask] using hm

/-- With nothing pending and traps not masked, a trap is taken. -/
theorem raiseTrap_taken (c : Cause) (s : State) (h : TrapsTaken s) : raiseTrap c s = .next (trapEntry s) := by
  obtain ⟨hp, hm⟩ := h
  unfold raiseTrap
  rw [if_neg (by simp [hp]), if_neg]
  intro hc
  simp only [Bool.and_eq_true, Bool.not_eq_true'] at hc
  rw [hm hc.1] at hc
  exact absurd hc.2 (by decide)

theorem raiseTrap_pending (c : Cause) (s : State) (h : s.pswNext.isSome = true) :
    raiseTrap c s = .refused (.trapAfterPutpsw c (fetchedWord s) s.pc) := by
  simp [raiseTrap, h, State.refusal]

theorem raiseTrap_masked (c : Cause) (s : State) (hp : s.pswNext = none)
    (hm : s.params.syncTrapsMaskedByI = true) (hi : s.psw.i = false) :
    raiseTrap c s = .refused (.trapWhileMasked c (fetchedWord s) s.pc) := by
  simp [raiseTrap, hp, hm, hi, State.refusal]

/-- If an instruction answers a next state, it was not barred by a pending `putpsw`, and it either completed or raised
a trap that was taken (R282). -/
theorem conclude_next (scc never : Bool) (s t : State) (e : Effect) (h : conclude scc never s e = .next t) :
    (s.pswNext = none ∨ (scc = false ∧ never = false)) ∧
      ((∃ u f, e = .done u f ∧ t = retire scc s u f) ∨
        (∃ c, e = .trap c ∧ TrapsTaken s ∧ t = trapEntry s)) := by
  unfold conclude at h
  split at h
  · cases h
  · rename_i hb
    refine ⟨?_, ?_⟩
    · cases hn : s.pswNext <;> simp_all
    · cases e with
      | done u f => cases h; exact .inl ⟨u, f, rfl, rfl⟩
      | trap c => exact .inr ⟨c, rfl, (raiseTrap_next c s t h).1, (raiseTrap_next c s t h).2⟩
      | refuse r => cases h

/-- What a pending `putpsw` bars (R284). -/
theorem conclude_barred (scc never : Bool) (s : State) (e : Effect) (h : s.pswNext.isSome = true)
    (hb : (scc || never) = true) : conclude scc never s e = .refused (.afterPutpsw (fetchedWord s) s.pc) := by
  simp [conclude, h, hb, State.refusal]

/-- What an instruction that is not barred does (R282 sub-steps 6 to 8). -/
theorem conclude_ready (scc never : Bool) (s : State) (e : Effect)
    (h : s.pswNext = none ∨ (scc = false ∧ never = false)) :
    conclude scc never s e =
      match e with
      | .done t flow => .next (retire scc s t flow)
      | .trap c => raiseTrap c s
      | .refuse r => .refused r := by
  have hb : (s.pswNext.isSome && (scc || never)) = false := by
    rcases h with h | ⟨h1, h2⟩
    · rw [h]; rfl
    · rw [h1, h2]; exact Bool.and_false _
  unfold conclude
  exact (if_neg (by simp [hb])).trans (by cases e <;> rfl)

/-- What a trap leaves: the relation claims are stated in. -/
theorem trapEntered_trapEntry (s : State) : TrapEntered s (trapEntry s) := by
  refine ⟨rfl, by simp, ?_, rfl, rfl, rfl, by simp, by simp, by simp, by simp, rfl⟩
  exact onlyRegister_of_regs s (trapEntry s) (s.psw.cwp - 1) 25 s.pc rfl

/-! ### Refusals -/

/-- Every refusal of an effect names the fetched word and its address (R282 sub-step 6a). -/
def RefusesByName (s : State) (e : Effect) : Prop := ∀ r, e = .refuse r → r.names = some (fetchedWord s, s.pc)

theorem refusesByName_done (s t : State) (f : Flow) : RefusesByName s (.done t f) := fun _ h => by cases h

theorem refusesByName_trap (s : State) (c : Cause) : RefusesByName s (.trap c) := fun _ h => by cases h

theorem refusesByName_refuse (s : State) (r : Word → Word → Refusal) (h : ∀ w pc, (r w pc).names = some (w, pc)) :
    RefusesByName s (.refuse (s.refusal r)) := by
  rintro r' h'; cases h'; exact h _ _

theorem refusesByName_privileged (s : State) (e : Effect) (h : RefusesByName s e) :
    RefusesByName s (privileged s e) := by
  unfold privileged; split
  · exact h
  · exact refusesByName_trap s _

theorem refusesByName_alignedTarget (s : State) (ea : Word) (e : Effect) (h : RefusesByName s e) :
    RefusesByName s (alignedTarget ea e) := by
  unfold alignedTarget; split
  · exact h
  · exact refusesByName_trap s _

theorem refusesByName_windowCheckCall (s : State) (w : Window) (e : Effect) (h : RefusesByName s e) :
    RefusesByName s (windowCheckCall s w e) := by
  unfold windowCheckCall; split
  · split
    · exact refusesByName_refuse s _ fun _ _ => rfl
    · exact refusesByName_trap s _
    · exact h
  · exact h

theorem refusesByName_windowCheckReturn (s : State) (w : Window) (e : Effect) (h : RefusesByName s e) :
    RefusesByName s (windowCheckReturn s w e) := by
  unfold windowCheckReturn; split
  · split
    · exact refusesByName_refuse s _ fun _ _ => rfl
    · exact refusesByName_trap s _
    · exact h
  · exact h

theorem refusesByName_whenCond (s : State) (c : Cond) (e : Effect) (h : RefusesByName s e) :
    RefusesByName s (whenCond c s e) := by
  unfold whenCond; split
  · exact refusesByName_refuse s _ fun _ _ => rfl
  · exact h
  · exact refusesByName_done s _ _

theorem refusesByName_loadEffect (k : LoadKind) (scc : Bool) (rd : RegName) (ea : Word) (s : State) :
    RefusesByName s (loadEffect k scc rd ea s) := by
  unfold loadEffect; split
  · exact refusesByName_trap s _
  · exact refusesByName_done s _ _

theorem refusesByName_storeEffect (w : Width) (rd : RegName) (ea : Word) (after : State → State) (s : State) :
    RefusesByName s (storeEffect w rd ea after s) := by
  unfold storeEffect; split
  · exact refusesByName_trap s _
  · exact refusesByName_done s _ _

/-! ### The checks before an effect -/

/-- A property of every completion an effect can end in. -/
def Ends (P : State → Flow → Prop) (e : Effect) : Prop := ∀ t f, e = .done t f → P t f

theorem ends_done (P : State → Flow → Prop) (t : State) (f : Flow) (h : P t f) : Ends P (.done t f) := by
  rintro t' f' h'; cases h'; exact h

theorem ends_trap (P : State → Flow → Prop) (c : Cause) : Ends P (.trap c) := fun _ _ h => by cases h

theorem ends_refuse (P : State → Flow → Prop) (r : Refusal) : Ends P (.refuse r) := fun _ _ h => by cases h

theorem ends_privileged (P : State → Flow → Prop) (s : State) (e : Effect) (h : s.psw.s = true → Ends P e) :
    Ends P (privileged s e) := by
  unfold privileged; split
  · rename_i hs; exact h hs
  · exact ends_trap P _

theorem ends_alignedTarget (P : State → Flow → Prop) (ea : Word) (e : Effect)
    (h : wordAligned ea = true → Ends P e) : Ends P (alignedTarget ea e) := by
  unfold alignedTarget; split
  · rename_i ha; exact h (by simp [wordAligned, ha])
  · exact ends_trap P _

theorem ends_windowCheckCall (P : State → Flow → Prop) (s : State) (w : Window) (e : Effect) (h : Ends P e) :
    Ends P (windowCheckCall s w e) := by
  unfold windowCheckCall; split
  · split
    · exact ends_refuse P _
    · exact ends_trap P _
    · exact h
  · exact h

theorem ends_windowCheckReturn (P : State → Flow → Prop) (s : State) (w : Window) (e : Effect) (h : Ends P e) :
    Ends P (windowCheckReturn s w e) := by
  unfold windowCheckReturn; split
  · split
    · exact ends_refuse P _
    · exact ends_trap P _
    · exact h
  · exact h

theorem ends_whenCond (P : State → Flow → Prop) (c : Cond) (s : State) (e : Effect) (hn : P s .seq) (h : Ends P e) :
    Ends P (whenCond c s e) := by
  unfold whenCond; split
  · exact ends_refuse P _
  · exact h
  · exact ends_done P _ _ hn

/-- A window check that lets the call or return go on (R246). -/
theorem windowCheckCall_pass (s : State) (w : Window) (e : Effect)
    (h : w ≠ s.psw.swp ∨ s.params.windowCheck = .none) : windowCheckCall s w e = e := by
  unfold windowCheckCall; split
  · rename_i hw; rcases h with h | h
    · exact absurd hw h
    · simp [h]
  · rfl

theorem windowCheckReturn_pass (s : State) (w : Window) (e : Effect)
    (h : w ≠ s.psw.swp ∨ s.params.windowCheck = .none) : windowCheckReturn s w e = e := by
  unfold windowCheckReturn; split
  · rename_i hw; rcases h with h | h
    · exact absurd hw h
    · simp [h]
  · rfl

theorem alignedTarget_pass (ea : Word) (e : Effect) (h : ea.toNat % 4 = 0) : alignedTarget ea e = e := by
  rw [alignedTarget, if_pos ((low2_eq_zero ea).mpr h)]

theorem alignedTarget_trap (ea : Word) (e : Effect) (h : ea.toNat % 4 ≠ 0) :
    alignedTarget ea e = .trap .misalignedTarget := by
  rw [alignedTarget, if_neg (fun h' => h ((low2_eq_zero ea).mp h'))]

/-! ### The patterns of the families -/

theorem loadEffect_aligned (k : LoadKind) (scc : Bool) (rd : RegName) (ea : Word) (s : State)
    (ha : ea.toNat % widthBytes (loadWidth k) = 0) :
    loadEffect k scc rd ea s =
      .done ((s.writeX rd (loadValue k s.params.endian (busByte .data s) ea)).writeFlags scc
        (logicFlags (loadValue k s.params.endian (busByte .data s) ea))) .seq := by
  rw [loadEffect, (misaligned_eq_false _ ea).mpr ha]; rfl

theorem loadEffect_misaligned (k : LoadKind) (scc : Bool) (rd : RegName) (ea : Word) (s : State)
    (ha : ea.toNat % widthBytes (loadWidth k) ≠ 0) : loadEffect k scc rd ea s = .trap .misalignedData := by
  rw [loadEffect, (misaligned_eq_true _ ea).mpr ha]; rfl

theorem storeEffect_aligned (w : Width) (rd : RegName) (ea : Word) (after : State → State) (s : State)
    (ha : ea.toNat % widthBytes w = 0) :
    storeEffect w rd ea after s = .done (after { s with mem := busWrite s w ea (s.x rd) }) .seq := by
  rw [storeEffect, (misaligned_eq_false _ ea).mpr ha]; rfl

theorem storeEffect_misaligned (w : Width) (rd : RegName) (ea : Word) (after : State → State) (s : State)
    (ha : ea.toNat % widthBytes w ≠ 0) : storeEffect w rd ea after s = .trap .misalignedData := by
  rw [storeEffect, (misaligned_eq_true _ ea).mpr ha]; rfl

theorem ends_loadEffect (P : State → Flow → Prop) (k : LoadKind) (scc : Bool) (rd : RegName) (ea : Word) (s : State)
    (h : P ((s.writeX rd (loadValue k s.params.endian (busByte .data s) ea)).writeFlags scc
        (logicFlags (loadValue k s.params.endian (busByte .data s) ea))) .seq) : Ends P (loadEffect k scc rd ea s) := by
  unfold loadEffect; split
  · exact ends_trap P _
  · exact ends_done P _ _ h

theorem ends_storeEffect (P : State → Flow → Prop) (w : Width) (rd : RegName) (ea : Word) (after : State → State)
    (s : State) (h : P (after { s with mem := busWrite s w ea (s.x rd) }) .seq) :
    Ends P (storeEffect w rd ea after s) := by
  unfold storeEffect; split
  · exact ends_trap P _
  · exact ends_done P _ _ h

theorem ends_callEffect (P : State → Flow → Prop) (scc : Bool) (rd : RegName) (ea : Word) (s : State)
    (h : wordAligned ea = true →
      P (callFlags scc ((s.setCwp (callWindow s.psw.cwp)).writeX rd s.pc)) (.jump ea)) :
    Ends P (callEffect scc rd ea s) :=
  ends_alignedTarget P _ _ fun ha => ends_windowCheckCall P _ _ _ (ends_done P _ _ (h ha))

theorem ends_jumpEffect (P : State → Flow → Prop) (scc : Bool) (c : Cond) (ea : Word) (s : State) (hn : P s .seq)
    (h : wordAligned ea = true → P s (.jump ea)) : Ends P (jumpEffect scc c ea s) := by
  unfold jumpEffect; split
  · exact ends_refuse P _
  · exact ends_whenCond P _ _ _ hn (ends_alignedTarget P _ _ fun ha => ends_done P _ _ (h ha))

end Sys2Proof.Machine
end

