-- ==== Sys2Proof/Laws/Exec.lean ====
section
/-! SUPPORT. `exec` as one end-of-instruction over one effect per instruction: what a proof about every instruction
starts from. -/

namespace Sys2Proof.Machine

/-- The instructions that may never follow a `putpsw`, whatever their SCC bit (R284). -/
def neverAfterPutpsw (i : Instr) : Bool :=
  [Mnemonic.callx, .callr, .calli, .ret, .reti, .putpsw].contains i.mnemonic

/-- The effect of each instruction, as its meaning has it. -/
def effectOf (i : Instr) (s : State) : Effect :=
  match i with
  | .calli _ rd =>
    privileged s (windowCheckCall s (callWindow s.psw.cwp) (.done ((s.setCwp (callWindow s.psw.cwp)).writeX rd s.lstpc) (.pcset trapVector)))
  | .getpsw scc rd s2 =>
    if s2 = .reg 0 then
      .done (((s.writeX rd (getpswValue s)).writeFlags scc (getpswFlags (getpswValue s))).useDraws (getpswDraws s)) .seq
    else .refuse (s.refusal .getpswOperand)
  | .getlpc scc rd => privileged s (.done ((s.writeX rd s.lstpc).writeFlags scc (getlpcFlags s.psw s.lstpc)) .seq)
  | .putpsw scc rs1 s2 =>
    if scc then
      .refuse (s.refusal .putpswWithScc)
    else privileged s (.done { s with pswNext := some (pswOfBits ((s.x rs1 + src2 s s2).extractLsb' 0 13)) } .seq)
  | .callx scc rd rs1 s2 =>
    if s2 = .reg 0 then callEffect scc rd (absAddr s rs1 s2) s
    else .refuse (s.refusal .callxOperand)
  | .callr scc rd imm19 => callEffect scc rd (relAddr s imm19) s
  | .jmpx scc cond rs1 s2 => jumpEffect scc cond (absAddr s rs1 s2) s
  | .jmpr scc cond imm19 => jumpEffect scc cond (relAddr s imm19) s
  | .ret scc cond rs1 s2 =>
    if scc then
      .refuse (s.refusal .jumpWithScc)
    else whenCond cond s (alignedTarget (absAddr s rs1 s2) (
        windowCheckReturn s (returnWindow s.psw.cwp) (.done (s.setCwp (returnWindow s.psw.cwp)) (.jump (absAddr s rs1 s2)))))
  | .reti _ cond rs1 s2 =>
    privileged s (whenCond cond s (alignedTarget (absAddr s rs1 s2) (
        windowCheckReturn s (returnWindow s.psw.cwp) (.done (returnFromTrap s) (.jump (absAddr s rs1 s2))))))
  | .sll scc rd rs1 s2 => logicResult scc rd (s.x rs1 <<< shiftCount (src2 s s2)) s
  | .sra scc rd rs1 s2 => logicResult scc rd ((s.x rs1).sshiftRight (shiftCount (src2 s s2))) s
  | .srl scc rd rs1 s2 => logicResult scc rd (s.x rs1 >>> shiftCount (src2 s s2)) s
  | .ldhi scc rd imm19 => logicResult scc rd (highImm imm19) s
  | .and scc rd rs1 s2 => logicResult scc rd (s.x rs1 &&& src2 s s2) s
  | .or scc rd rs1 s2 => logicResult scc rd (s.x rs1 ||| src2 s s2) s
  | .xor scc rd rs1 s2 => logicResult scc rd (s.x rs1 ^^^ src2 s s2) s
  | .add scc rd rs1 s2 => arithResult scc rd (addOf (s.x rs1) (src2 s s2) 0) s
  | .addc scc rd rs1 s2 => arithResult scc rd (addOf (s.x rs1) (src2 s s2) (carryNat s.psw.c)) s
  | .sub scc rd rs1 s2 => arithResult scc rd (subOf (s.x rs1) (src2 s s2) 0) s
  | .subc scc rd rs1 s2 => arithResult scc rd (subOf (s.x rs1) (src2 s s2) (subcAdjust s.params.subcForm s.psw.c)) s
  | .subi scc rd rs1 s2 => arithResult scc rd (subOf (src2 s s2) (s.x rs1) 0) s
  | .subci scc rd rs1 s2 => arithResult scc rd (subOf (src2 s s2) (s.x rs1) (subcAdjust s.params.subcForm s.psw.c)) s
  | .ldxw scc rd rs1 s2 => loadEffect .word scc rd (absAddr s rs1 s2) s
  | .ldrw scc rd imm19 => loadEffect .word scc rd (relAddr s imm19) s
  | .lxhu scc rd rs1 s2 => loadEffect .halfU scc rd (absAddr s rs1 s2) s
  | .lrhu scc rd imm19 => loadEffect .halfU scc rd (relAddr s imm19) s
  | .lxhs scc rd rs1 s2 => loadEffect .halfS scc rd (absAddr s rs1 s2) s
  | .lrhs scc rd imm19 => loadEffect .halfS scc rd (relAddr s imm19) s
  | .lxbu scc rd rs1 s2 => loadEffect .byteU scc rd (absAddr s rs1 s2) s
  | .lrbu scc rd imm19 => loadEffect .byteU scc rd (relAddr s imm19) s
  | .lxbs scc rd rs1 s2 => loadEffect .byteS scc rd (absAddr s rs1 s2) s
  | .lrbs scc rd imm19 => loadEffect .byteS scc rd (relAddr s imm19) s
  | .stxw scc rd rs1 s2 => absStore .word scc rd rs1 s2 s
  | .strw scc rd imm19 => relStore .word scc rd imm19 s
  | .stxh scc rd rs1 s2 => absStore .half scc rd rs1 s2 s
  | .strh scc rd imm19 => relStore .half scc rd imm19 s
  | .stxb scc rd rs1 s2 => absStore .byte scc rd rs1 s2 s
  | .strb scc rd imm19 => relStore .byte scc rd imm19 s

/-- Every instruction's meaning is its effect, concluded (R282). -/
theorem exec_eq (i : Instr) (s : State) : exec i s = conclude i.scc (neverAfterPutpsw i) s (effectOf i s) := by
  cases i <;> rfl

/-- If an instruction answers a next state, it completed with its effect or took a trap (R13, R282). -/
theorem exec_next (i : Instr) (s t : State) (h : exec i s = .next t) :
    (s.pswNext = none ∨ (i.scc = false ∧ neverAfterPutpsw i = false)) ∧
      ((∃ u f, effectOf i s = .done u f ∧ t = retire i.scc s u f) ∨
        (∃ c, effectOf i s = .trap c ∧ TrapsTaken s ∧ t = trapEntry s)) :=
  conclude_next _ _ _ _ _ (exec_eq i s ▸ h)

/-- A property of every completion of every instruction, from that property for the completion each pattern builds. -/
theorem ends_effectOf (i : Instr) (P : State → Flow → Prop) (s : State)
    (seq : P s .seq) (jump : ∀ a, wordAligned a = true → P s (.jump a))
    (reg : ∀ rd v f, P ((s.writeX rd v).writeFlags i.scc f) .seq)
    (status : ∀ rd v f k, P (((s.writeX rd v).writeFlags i.scc f).useDraws k) .seq)
    (pend : ∀ q, i.mnemonic = .putpsw → s.psw.s = true → P { s with pswNext := some q } .seq)
    (calli : ∀ rd, i.mnemonic = .calli → s.psw.s = true →
      P ((s.setCwp (callWindow s.psw.cwp)).writeX rd s.lstpc) (.pcset trapVector))
    (call : ∀ rd a, neverAfterPutpsw i = true → wordAligned a = true →
      P (callFlags i.scc ((s.setCwp (callWindow s.psw.cwp)).writeX rd s.pc)) (.jump a))
    (ret : ∀ a, neverAfterPutpsw i = true → wordAligned a = true →
      P (s.setCwp (returnWindow s.psw.cwp)) (.jump a))
    (reti : ∀ a, i.mnemonic = .reti → s.psw.s = true → wordAligned a = true → P (returnFromTrap s) (.jump a))
    (absStore : ∀ w a v, P (absStoreFlags i.scc v { s with mem := busWrite s w a v }) .seq)
    (relStore : ∀ w a v, P (relStoreAfter i.scc { s with mem := busWrite s w a v }) .seq) :
    Ends P (effectOf i s) := by
  have onSrc2 : ∀ (w : Width) rd rs1 s2, Ends P (Sys2Proof.Machine.absStore w i.scc rd rs1 s2 s) := by
    intro w rd rs1 s2
    cases s2 with
    | reg r => exact ends_refuse P _
    | imm b => exact ends_storeEffect P _ _ _ _ _ (absStore _ _ _)
  have onRel : ∀ (w : Width) rd imm19, Ends P (Sys2Proof.Machine.relStore w i.scc rd imm19 s) :=
    fun w rd imm19 => ends_storeEffect P _ _ _ _ _ (relStore _ _ _)
  cases i with
  | calli scc rd =>
    exact ends_privileged P _ _ fun hs => ends_windowCheckCall P _ _ _ (ends_done P _ _ (calli _ rfl hs))
  | getpsw scc rd s2 =>
    simp only [effectOf]; split
    · exact ends_done P _ _ (status _ _ _ _)
    · exact ends_refuse P _
  | getlpc scc rd => exact ends_privileged P _ _ fun _ => ends_done P _ _ (reg _ _ _)
  | putpsw scc rs1 s2 =>
    simp only [effectOf]; split
    · exact ends_refuse P _
    · exact ends_privileged P _ _ fun hs => ends_done P _ _ (pend _ rfl hs)
  | callx scc rd rs1 s2 =>
    simp only [effectOf]; split
    · exact ends_callEffect P _ _ _ _ (call _ _ rfl)
    · exact ends_refuse P _
  | callr scc rd imm19 => exact ends_callEffect P _ _ _ _ (call _ _ rfl)
  | jmpx scc cond rs1 s2 => exact ends_jumpEffect P _ _ _ _ seq (jump _)
  | jmpr scc cond imm19 => exact ends_jumpEffect P _ _ _ _ seq (jump _)
  | ret scc cond rs1 s2 =>
    simp only [effectOf]; split
    · exact ends_refuse P _
    · exact ends_whenCond P _ _ _ seq (ends_alignedTarget P _ _ fun ha =>
        ends_windowCheckReturn P _ _ _ (ends_done P _ _ (ret _ rfl ha)))
  | reti scc cond rs1 s2 =>
    exact ends_privileged P _ _ fun hs => ends_whenCond P _ _ _ seq (ends_alignedTarget P _ _ fun ha =>
      ends_windowCheckReturn P _ _ _ (ends_done P _ _ (reti _ rfl hs ha)))
  | sll scc rd rs1 s2 => exact ends_done P _ _ (reg _ _ _)
  | sra scc rd rs1 s2 => exact ends_done P _ _ (reg _ _ _)
  | srl scc rd rs1 s2 => exact ends_done P _ _ (reg _ _ _)
  | ldhi scc rd imm19 => exact ends_done P _ _ (reg _ _ _)
  | and scc rd rs1 s2 => exact ends_done P _ _ (reg _ _ _)
  | or scc rd rs1 s2 => exact ends_done P _ _ (reg _ _ _)
  | xor scc rd rs1 s2 => exact ends_done P _ _ (reg _ _ _)
  | add scc rd rs1 s2 => exact ends_done P _ _ (reg _ _ _)
  | addc scc rd rs1 s2 => exact ends_done P _ _ (reg _ _ _)
  | sub scc rd rs1 s2 => exact ends_done P _ _ (reg _ _ _)
  | subc scc rd rs1 s2 => exact ends_done P _ _ (reg _ _ _)
  | subi scc rd rs1 s2 => exact ends_done P _ _ (reg _ _ _)
  | subci scc rd rs1 s2 => exact ends_done P _ _ (reg _ _ _)
  | ldxw scc rd rs1 s2 => exact ends_loadEffect P _ _ _ _ _ (reg _ _ _)
  | ldrw scc rd imm19 => exact ends_loadEffect P _ _ _ _ _ (reg _ _ _)
  | lxhu scc rd rs1 s2 => exact ends_loadEffect P _ _ _ _ _ (reg _ _ _)
  | lrhu scc rd imm19 => exact ends_loadEffect P _ _ _ _ _ (reg _ _ _)
  | lxhs scc rd rs1 s2 => exact ends_loadEffect P _ _ _ _ _ (reg _ _ _)
  | lrhs scc rd imm19 => exact ends_loadEffect P _ _ _ _ _ (reg _ _ _)
  | lxbu scc rd rs1 s2 => exact ends_loadEffect P _ _ _ _ _ (reg _ _ _)
  | lrbu scc rd imm19 => exact ends_loadEffect P _ _ _ _ _ (reg _ _ _)
  | lxbs scc rd rs1 s2 => exact ends_loadEffect P _ _ _ _ _ (reg _ _ _)
  | lrbs scc rd imm19 => exact ends_loadEffect P _ _ _ _ _ (reg _ _ _)
  | stxw scc rd rs1 s2 => exact onSrc2 _ _ _ _
  | strw scc rd imm19 => exact onRel _ _ _
  | stxh scc rd rs1 s2 => exact onSrc2 _ _ _ _
  | strh scc rd imm19 => exact onRel _ _ _
  | stxb scc rd rs1 s2 => exact onSrc2 _ _ _ _
  | strb scc rd imm19 => exact onRel _ _ _

end Sys2Proof.Machine
end

