-- ==== Sys2Proof/Laws/Completion.lean ====
section
/-! SUPPORT. What a completed instruction leaves, pattern by pattern, in the relations claims are stated in. -/

namespace Sys2Proof.Machine

/-- An instruction that R284 does not bar. -/
theorem ready_of_sccOff (s : State) (scc : Bool) (h : s.pswNext = none ∨ scc = false) :
    s.pswNext = none ∨ (scc = false ∧ false = false) :=
  h.imp id fun h => ⟨h, rfl⟩

/-- What is in effect after an instruction that leaves nothing pending itself (R46). -/
theorem pswAfter_retire (scc : Bool) (s t : State) (f : Flow) (h : t.pswNext = s.pswNext) :
    PswAfter s (retire scc s t f) t.psw := by
  refine ⟨rfl, ?_⟩
  simp only [retire_pswNext, h]
  cases hn : s.pswNext <;> rfl

/-- The counters and the inputs after an instruction that changes no input (R33). -/
theorem advances_retire (scc : Bool) (s t : State) (hi : t.irq = s.irq) (hs : t.steps = s.steps) (hp : t.params = s.params) (f : Flow)
    (hf : flowPc s f = s.nxtpc) : Advances s (retire scc s t f) (flowNxtpc s f) scc :=
  ⟨rfl, hf, rfl, rfl, hi, hs, hp⟩

/-- A register result with its flags, completed in sequence: shifts, logic, arithmetic, loads, `getlpc`. -/
theorem registerResult_retire (s : State) (scc : Bool) (rd : RegName) (v : Word) (f : Flags) :
    RegisterResult s (retire scc s ((s.writeX rd v).writeFlags scc f) .seq) scc rd v f := by
  refine ⟨onlyRegister_of_regs _ _ _ _ _ (by simp [State.writeX]), ?_, fun a => by simp,
    advances_retire _ _ _ (by simp) (by simp) (by simp) _ rfl⟩
  have h := pswAfter_retire scc s ((s.writeX rd v).writeFlags scc f) .seq (by simp)
  simp only [writeFlags_psw, writeX_psw] at h
  exact h

/-- What an instruction with a register result does when it is not barred (R284). -/
theorem exec_logicResult (i : Instr) (s : State) (rd : RegName) (v : Word) (h : s.pswNext = none ∨ i.scc = false)
    (hn : neverAfterPutpsw i = false) (he : effectOf i s = logicResult i.scc rd v s) :
    ∃ t, exec i s = .next t ∧ RegisterResult s t i.scc rd v (logicFlags v) := by
  refine ⟨_, ?_, registerResult_retire s i.scc rd v _⟩
  rw [exec_eq, he, hn, conclude_ready _ _ _ _ (ready_of_sccOff s _ h)]; rfl

theorem exec_arithResult (i : Instr) (s : State) (rd : RegName) (r : Sum) (h : s.pswNext = none ∨ i.scc = false)
    (hn : neverAfterPutpsw i = false) (he : effectOf i s = arithResult i.scc rd r s) :
    ∃ t, exec i s = .next t ∧ RegisterResult s t i.scc rd r.res (arithFlags r) := by
  refine ⟨_, ?_, registerResult_retire s i.scc rd r.res _⟩
  rw [exec_eq, he, hn, conclude_ready _ _ _ _ (ready_of_sccOff s _ h)]; rfl

theorem exec_loadEffect (i : Instr) (s : State) (k : LoadKind) (rd : RegName) (ea : Word)
    (h : s.pswNext = none ∨ i.scc = false) (hn : neverAfterPutpsw i = false)
    (he : effectOf i s = loadEffect k i.scc rd ea s) (ha : ea.toNat % widthBytes (loadWidth k) = 0) :
    ∃ t, exec i s = .next t ∧
      RegisterResult s t i.scc rd (loadValue k s.params.endian (busByte .data s) ea)
        (logicFlags (loadValue k s.params.endian (busByte .data s) ea)) := by
  refine ⟨_, ?_, registerResult_retire s i.scc rd _ _⟩
  rw [exec_eq, he, hn, conclude_ready _ _ _ _ (ready_of_sccOff s _ h), loadEffect_aligned _ _ _ _ _ ha]

/-- A trap condition that is taken (R249). -/
theorem exec_trap (i : Instr) (s : State) (c : Cause) (h : TrapsTaken s) (he : effectOf i s = .trap c) :
    ∃ t, exec i s = .next t ∧ TrapEntered s t := by
  refine ⟨trapEntry s, ?_, trapEntered_trapEntry s⟩
  rw [exec_eq, he, conclude_ready _ _ _ _ (.inl h.1)]
  exact raiseTrap_taken c s h

/-- A refusal of the instruction's own (R13). -/
theorem exec_refuse (i : Instr) (s : State) (r : Refusal)
    (h : s.pswNext = none ∨ (i.scc = false ∧ neverAfterPutpsw i = false)) (he : effectOf i s = .refuse r) :
    exec i s = .refused r := by
  rw [exec_eq, he, conclude_ready _ _ _ _ h]

/-- A completion of the instruction's own (R13). -/
theorem exec_done (i : Instr) (s t : State) (f : Flow)
    (h : s.pswNext = none ∨ (i.scc = false ∧ neverAfterPutpsw i = false)) (he : effectOf i s = .done t f) :
    exec i s = .next (retire i.scc s t f) := by
  rw [exec_eq, he, conclude_ready _ _ _ _ h]

/-! ### Bytes as numbers (R61) -/

/-- The number that `n` bytes denote in a byte order. -/
def orderedNat (e : Endian) (bs : List Byte) : Nat :=
  match e with
  | .big => bytesNat bs
  | .little => bytesNat bs.reverse

theorem memNat_eq (e : Endian) (m : Memory) (a n : Nat) : memNat e m a n = orderedNat e (memBytes m a n) := by
  cases e <;> rfl

theorem halfAt_toNat (e : Endian) (byte : Word → Byte) (a : Word) :
    (halfAt e byte a).toNat = orderedNat e [byte a, byte (a + 1)] := by
  cases e <;>
    simp only [orderedNat, bytesNat, halfAt, halfOfBytes, List.foldl_cons, List.foldl_nil, List.reverse_cons,
      List.reverse_nil, List.nil_append, List.cons_append, BitVec.toNat_append] <;>
    rw [Nat.shiftLeft_eq, Nat.mul_comm, ← Nat.two_pow_add_eq_or_of_lt (BitVec.isLt _)] <;> omega

theorem wordAt_toNat (e : Endian) (byte : Word → Byte) (a : Word) :
    (wordAt e byte a).toNat = orderedNat e [byte a, byte (a + 1), byte (a + 2), byte (a + 3)] := by
  have cat : ∀ (b0 b1 b2 b3 : Byte),
      (b0 ++ b1 ++ b2 ++ b3).toNat = ((b0.toNat * 256 + b1.toNat) * 256 + b2.toNat) * 256 + b3.toNat := by
    intro b0 b1 b2 b3
    have l1 := b1.isLt; have l2 := b2.isLt; have l3 := b3.isLt
    rw [BitVec.toNat_append, Nat.shiftLeft_eq, Nat.mul_comm, ← Nat.two_pow_add_eq_or_of_lt l3,
      BitVec.toNat_append, Nat.shiftLeft_eq, Nat.mul_comm _ (2 ^ 8), ← Nat.two_pow_add_eq_or_of_lt l2,
      BitVec.toNat_append, Nat.shiftLeft_eq, Nat.mul_comm _ (2 ^ 8), ← Nat.two_pow_add_eq_or_of_lt l1]
    omega
  cases e <;>
    simp only [orderedNat, bytesNat, wordAt, wordOfBytes, cat, List.foldl_cons, List.foldl_nil, List.reverse_cons,
      List.reverse_nil, List.nil_append, List.cons_append, Nat.zero_mul, Nat.zero_add]

/-- What `byte` delivers at the addresses of an aligned access, in address order. -/
def bytesAt (byte : Word → Byte) (a : Word) (n : Nat) : List Byte :=
  (List.range n).map fun k => byte (a + BitVec.ofNat 32 k)

/-- Where the map keeps RAM or ROM, an aligned read finds the bytes of memory. -/
theorem bytesAt_memory (x : Access) (s : State) (w : Width) (a : Word) (ha : a.toNat % widthBytes w = 0)
    (hp : holdsMemory s.params a (widthBytes w) = true) :
    bytesAt (busByte x s) a (widthBytes w) = memBytes s.mem a.toNat (widthBytes w) := by
  simp only [holdsMemory, List.all_eq_true, List.mem_range] at hp
  refine List.map_congr_left fun k hk => ?_
  have h := toNat_add_of_aligned w a k ha (List.mem_range.mp hk)
  rw [busByte_memory x s _ (by rw [h]; exact hp k (List.mem_range.mp hk)), readByte, h]

/-- Where the map keeps nothing, an aligned read finds the platform's byte. -/
theorem bytesAt_empty (x : Access) (s : State) (w : Width) (a : Word) (b : Byte) (ha : a.toNat % widthBytes w = 0)
    (hp : readsEmpty s.params a (widthBytes w) b = true) :
    bytesAt (busByte x s) a (widthBytes w) = List.replicate (widthBytes w) b := by
  simp only [readsEmpty, List.all_eq_true, List.mem_range, beq_iff_eq] at hp
  refine List.ext_getElem (by simp [bytesAt]) fun k h1 h2 => ?_
  have hk : k < widthBytes w := by simpa using h2
  simp only [bytesAt, List.getElem_map, List.getElem_range, List.getElem_replicate]
  exact busByte_empty x s _ b (by rw [toNat_add_of_aligned w a k ha hk]; exact hp k hk)

theorem orderedNat_replicate (e : Endian) (n : Nat) (b : Byte) :
    orderedNat e (List.replicate n b) = bytesNat (List.replicate n b) := by
  cases e <;> simp [orderedNat]

/-- The extension a load applies to the number of the bytes it reads (R69). -/
def extendNat (k : LoadKind) (v : Nat) : Word :=
  match k with
  | .word => BitVec.ofNat 32 v
  | .halfU => BitVec.ofNat 32 v
  | .halfS => (BitVec.ofNat 16 v).signExtend 32
  | .byteU => BitVec.ofNat 32 v
  | .byteS => (BitVec.ofNat 8 v).signExtend 32

/-- The value of a load is the extended number of the bytes it finds (R69, R202). -/
theorem loadValue_eq (k : LoadKind) (e : Endian) (byte : Word → Byte) (a : Word) :
    loadValue k e byte a = extendNat k (orderedNat e (bytesAt byte a (widthBytes (loadWidth k)))) := by
  have one : ∀ b : Byte, orderedNat e [b] = b.toNat := by intro b; cases e <;> simp [orderedNat, bytesNat]
  have half : orderedNat e [byte a, byte (a + 1#32)] = (halfAt e byte a).toNat := (halfAt_toNat e byte a).symm
  have word : orderedNat e [byte a, byte (a + 1#32), byte (a + 2#32), byte (a + 3#32)] = (wordAt e byte a).toNat :=
    (wordAt_toNat e byte a).symm
  cases k <;>
    simp [loadValue, extendNat, loadWidth, widthBytes, bytesAt, List.range_succ, one, half, word]

/-- A fetched word is the number of its bytes, where the map keeps memory (R63). -/
theorem fetchedWord_memory (s : State) (ha : s.pc.toNat % 4 = 0) (hp : holdsMemory s.params s.pc 4 = true) :
    fetchedWord s = BitVec.ofNat 32 (memNat s.params.endian s.mem s.pc.toNat 4) := by
  have h := loadValue_eq .word s.params.endian (busByte .fetch s) s.pc
  rw [show widthBytes (loadWidth .word) = widthBytes .word from rfl, bytesAt_memory .fetch s .word s.pc ha hp] at h
  rw [memNat_eq]; exact h

/-- The number a list of four bytes in a byte order denotes. -/
theorem bytesOfWord_toNat (v : Word) :
    v.toNat = ((((byteOfWord 3 v).toNat * 256 + (byteOfWord 2 v).toNat) * 256 + (byteOfWord 1 v).toNat) * 256 +
      (byteOfWord 0 v).toNat) := by
  have := v.isLt
  simp only [byteOfWord_toNat]; omega

/-- An aligned write puts the low bytes of the value at its address, in the byte order (R61, R69). -/
theorem memBytes_memWrite (e : Endian) (m : Memory) (w : Width) (a v : Word) (h : m.wf = true)
    (ha : a.toNat % widthBytes w = 0) :
    memBytes (memWrite e m w a v) a.toNat (widthBytes w) = storeBytes e w v := by
  apply List.ext_getElem
  · simp [memBytes, storeBytes_length]
  · intro k h1 h2
    simp only [memBytes, List.getElem_map, List.getElem_range]
    exact memByte_memWrite_at e m w a v k (by simpa [storeBytes_length] using h2) ha h

end Sys2Proof.Machine
end

