-- ==== Sys2Proof/Laws/Arithmetic.lean ====
section
/-! SUPPORT. The operations on words as arithmetic of integers and natural numbers. -/

namespace Sys2Proof.Machine

/-- The shift count is `S2 mod 32` (R168). -/
theorem shiftCount_eq (v : Word) : shiftCount v = v.toNat % 32 := by simp [shiftCount]

/-- An arithmetic right shift is a division that rounds down (R162). -/
theorem sshiftRight_eq_div (a : Word) (n : Nat) : a.sshiftRight n = BitVec.ofInt 32 (a.toInt / 2 ^ n) := by
  apply BitVec.eq_of_toInt_eq
  rw [BitVec.toInt_sshiftRight, Int.shiftRight_eq_div_pow, BitVec.toInt_ofInt]
  have h1 := BitVec.le_toInt a
  have h2 := BitVec.toInt_lt (x := a)
  have hpos : (1 : Int) ≤ 2 ^ n := one_le_pow₀ (by decide)
  norm_num at h1 h2
  push_cast
  rw [Int.bmod_eq_of_le]
  · have : (-2147483648 : Int) ≤ a.toInt / 2 ^ n := by
      apply Int.le_ediv_of_mul_le (by omega)
      nlinarith
    simpa using this
  · have : a.toInt / 2 ^ n ≤ (2147483647 : Int) := by
      apply Int.ediv_le_of_le_mul (by omega)
      nlinarith
    simp; omega

/-- Signed overflow of a sum, from the signs (R180). -/
theorem addOf_overflow (p q : Word) (c : Nat) (hc : c ≤ 1) :
    signedOverflow (p.toInt + q.toInt + c) = decide (p.msb = q.msb ∧ (addOf p q c).res.msb ≠ p.msb) := by
  have hp := p.isLt; have hq := q.isLt
  simp only [signedOverflow, addOf, BitVec.toInt_eq_msb_cond, BitVec.msb_eq_decide, BitVec.toNat_ofNat]
  rw [← Bool.decide_or]
  apply decide_eq_decide.mpr
  by_cases h1 : 2 ^ (32 - 1) ≤ p.toNat <;> by_cases h2 : 2 ^ (32 - 1) ≤ q.toNat <;> simp [*] <;> omega

/-- A difference with nothing to adjust (R181). -/
theorem subOf_res (p q : Word) : (subOf p q 0).res = p - q := by
  apply BitVec.eq_of_toNat_eq
  have hp := p.isLt; have hq := q.isLt
  simp only [subOf, BitVec.toNat_ofInt, BitVec.toNat_sub]
  omega

/-- Signed overflow of a difference, from the signs (R181). -/
theorem subOf_overflow (p q : Word) :
    signedOverflow (p.toInt - q.toInt + 0) = decide (p.msb ≠ q.msb ∧ (p - q).msb ≠ p.msb) := by
  have hp := p.isLt; have hq := q.isLt
  simp only [signedOverflow, BitVec.toInt_eq_msb_cond, BitVec.msb_eq_decide, BitVec.toNat_sub]
  rw [← Bool.decide_or]
  apply decide_eq_decide.mpr
  by_cases h1 : 2 ^ (32 - 1) ≤ p.toNat <;> by_cases h2 : 2 ^ (32 - 1) ≤ q.toNat <;> simp [*] <;> omega

/-- What a load of an aligned address delivers where the map keeps RAM or ROM (R61, R69, R72). -/
theorem loadValue_memory (k : LoadKind) (s : State) (ea : Word) (h : ea.toNat % widthBytes (loadWidth k) = 0)
    (hp : holdsMemory s.params ea (widthBytes (loadWidth k)) = true) :
    loadValue k s.params.endian (busByte .data s) ea =
      extendNat k (memNat s.params.endian s.mem ea.toNat (widthBytes (loadWidth k))) := by
  rw [loadValue_eq, bytesAt_memory .data s _ ea h hp, memNat_eq]

/-- What a load of an aligned address delivers where the map keeps nothing (R72). -/
theorem loadValue_empty (k : LoadKind) (s : State) (ea : Word) (b : Byte)
    (h : ea.toNat % widthBytes (loadWidth k) = 0)
    (hp : readsEmpty s.params ea (widthBytes (loadWidth k)) b = true) :
    loadValue k s.params.endian (busByte .data s) ea =
      extendNat k (bytesNat (List.replicate (widthBytes (loadWidth k)) b)) := by
  rw [loadValue_eq, bytesAt_empty .data s _ ea b h hp, orderedNat_replicate]

/-- The bytes a store puts at its address, one by one (R61, R69). -/
theorem storeBytes_getElem (e : Endian) (w : Width) (v : Word) (k : Nat) (hk : k < (storeBytes e w v).length) :
    (storeBytes e w v)[k] = storedByte e (widthBytes w) v k := by
  have key : ∀ j, byteOfWord j v = BitVec.ofNat 8 (v.toNat / 256 ^ j) := by
    intro j
    apply BitVec.eq_of_toNat_eq
    rw [byteOfWord_toNat, BitVec.toNat_ofNat, Nat.pow_mul]
  have hk' : k < widthBytes w := by rwa [storeBytes_length] at hk
  cases e <;> cases w <;> simp only [widthBytes] at hk' <;>
    rcases k with _ | _ | _ | _ | k <;> first | omega | exact key _

/-- The number the stored bytes denote (R61, R69). -/
theorem storeBytes_toNat (e : Endian) (w : Width) (v : Word) :
    (match e with
      | .big => bytesNat (storeBytes e w v)
      | .little => bytesNat (storeBytes e w v).reverse) = v.toNat % 2 ^ (8 * widthBytes w) := by
  have := v.isLt
  cases e <;> cases w <;>
    simp [storeBytes, bytesOfWord, bytesOfHalf, bytesNat, widthBytes, byteOfWord_toNat] <;> omega

end Sys2Proof.Machine
end

