-- ==== Sys2Proof/Laws/Decode.lean ====
section
/-! SUPPORT. The decoder and the encoder piece by piece: names and codes, and each field of an encoded word. -/

namespace Sys2Proof

/-! ### Names and codes -/

theorem mem_allMnemonics (k : Mnemonic) : k ∈ allMnemonics := by cases k <;> decide

theorem op_injective (m : OpcodeMap) (h : m.injective = true) (j k : Mnemonic) (e : m.op j = m.op k) : j = k := by
  simp only [OpcodeMap.injective, decide_eq_true_eq] at h
  exact List.inj_on_of_nodup_map h (mem_allMnemonics j) (mem_allMnemonics k) e

theorem mnemonicOf_op (m : OpcodeMap) (h : m.injective = true) (k : Mnemonic) : mnemonicOf m (m.op k) = some k := by
  unfold mnemonicOf
  cases hf : allMnemonics.find? (fun j => m.op j == m.op k) with
  | none =>
    rw [List.find?_eq_none] at hf
    exact absurd (beq_self_eq_true _) (hf k (mem_allMnemonics k))
  | some j => rw [op_injective m h j k (beq_iff_eq.mp (List.find?_some (p := fun j => m.op j == m.op k) hf))]

theorem op_of_mnemonicOf (m : OpcodeMap) (o : OpcodeBits) (k : Mnemonic) (h : mnemonicOf m o = some k) : m.op k = o :=
  beq_iff_eq.mp (List.find?_some (p := fun j => m.op j == o) h)

theorem mnemonicOf_eq_none (m : OpcodeMap) (o : OpcodeBits) : mnemonicOf m o = none ↔ ∀ k, m.op k ≠ o := by
  rw [mnemonicOf, List.find?_eq_none]
  exact ⟨fun h k e => h k (mem_allMnemonics k) (beq_iff_eq.mpr e), fun h k _ e => h k (beq_iff_eq.mp e)⟩

theorem condOfCode_code (c : Cond) : condOfCode c.code = c := by cases c <;> rfl

theorem code_condOfCode (c : BitVec 4) : (condOfCode c).code = c := by revert c; decide

theorem instrOf_mnemonic (k : Mnemonic) (w : Word) : (instrOf k w).mnemonic = k := by cases k <;> rfl

theorem instrOf_scc (k : Mnemonic) (w : Word) : (instrOf k w).scc = sccField w := by cases k <;> rfl

/-- What a decoded word is (R102): the instruction of the mnemonic its opcode selects, with its fields. -/
theorem decodeWith_ok (m : OpcodeMap) (w : Word) (i : Instr) (h : decodeWith m w = .ok i) :
    m.op i.mnemonic = opField w ∧ i = instrOf i.mnemonic w := by
  unfold decodeWith at h
  split at h
  · cases h
  · rename_i k hk
    cases h
    rw [instrOf_mnemonic]; exact ⟨op_of_mnemonicOf m _ k hk, rfl⟩

/-! ### The fields of an encoded word (R91 to R99) -/

/-- Each bit of an instruction's word. -/
theorem encodeWith_bit (m : OpcodeMap) (i : Instr) (k : Nat) :
    (encodeWith m i).getLsbD k =
      if k < 19 then i.lowBits.getLsbD k
      else if k < 24 then i.destBits.getLsbD (k - 19)
      else if k < 25 then i.scc
      else (m.op i.mnemonic).getLsbD (k - 25) := by
  simp only [encodeWith, BitVec.getLsbD_append, BitVec.getLsbD_ofBool]
  by_cases h1 : k < 19
  · simp [h1]
  · by_cases h2 : k < 24
    · simp [h1, h2, show k - 19 < 5 by omega]
    · by_cases h3 : k < 25
      · have : k = 24 := by omega
        subst this; simp
      · simp [h1, h2, h3, show ¬ k - 19 < 5 by omega, show ¬ (k - 19 - 5 < 1) by omega,
          show k - 19 - 5 - 1 = k - 25 by omega]

theorem opField_encodeWith (m : OpcodeMap) (i : Instr) : opField (encodeWith m i) = m.op i.mnemonic := by
  apply BitVec.eq_of_getLsbD_eq; intro k hk
  rw [opField, BitVec.getLsbD_extractLsb', encodeWith_bit, if_neg (by omega), if_neg (by omega), if_neg (by omega)]
  simp [hk]

theorem sccField_encodeWith (m : OpcodeMap) (i : Instr) : sccField (encodeWith m i) = i.scc := by
  rw [sccField, encodeWith_bit]; rfl

theorem destField_encodeWith (m : OpcodeMap) (i : Instr) : destField (encodeWith m i) = i.destBits := by
  apply BitVec.eq_of_getLsbD_eq; intro k hk
  rw [destField, BitVec.getLsbD_extractLsb', encodeWith_bit, if_neg (by omega), if_pos (by omega)]
  simp [hk]

theorem imm19Field_encodeWith (m : OpcodeMap) (i : Instr) : imm19Field (encodeWith m i) = i.lowBits := by
  apply BitVec.eq_of_getLsbD_eq; intro k hk
  rw [imm19Field, BitVec.getLsbD_extractLsb', encodeWith_bit, if_pos (by omega)]
  simp [hk]

/-- The condition is the low four bits of DEST (R99). -/
theorem condField_eq (w : Word) : condField w = condOfCode ((destField w).extractLsb' 0 4) := by
  unfold condField destField; congr 1
  apply BitVec.eq_of_getLsbD_eq; intro k hk
  simp [hk]
  omega

/-- Rs1 is the top of the low 19 bits (R92). -/
theorem rs1Field_eq (w : Word) : rs1Field w = (imm19Field w).extractLsb' 14 5 := by
  apply BitVec.eq_of_getLsbD_eq; intro k hk
  simp [rs1Field, imm19Field, hk]

/-- shortSource2 is the rest of them (R92, R93, R94). -/
theorem src2Field_eq (w : Word) :
    src2Field w = if (imm19Field w).getLsbD 13 then .imm ((imm19Field w).extractLsb' 0 13)
      else .reg ((imm19Field w).extractLsb' 0 5) := by
  have h1 : (imm19Field w).getLsbD 13 = w.getLsbD 13 := by simp [imm19Field]
  have h2 : (imm19Field w).extractLsb' 0 13 = w.extractLsb' 0 13 := by
    apply BitVec.eq_of_getLsbD_eq; intro k hk
    simp [imm19Field, hk]
  have h3 : (imm19Field w).extractLsb' 0 5 = w.extractLsb' 0 5 := by
    apply BitVec.eq_of_getLsbD_eq; intro k hk
    simp [imm19Field, hk]
  rw [h1, h2, h3]; rfl

theorem shortBits_rs1 (r : RegName) (s2 : Src2) : (shortBits r s2).extractLsb' 14 5 = r := by
  apply BitVec.eq_of_getLsbD_eq; intro k hk
  simp only [shortBits, BitVec.getLsbD_append, BitVec.getLsbD_extractLsb']
  simp [hk]

theorem shortBits_src2 (r : RegName) (s2 : Src2) :
    (if (shortBits r s2).getLsbD 13 then Src2.imm ((shortBits r s2).extractLsb' 0 13)
      else .reg ((shortBits r s2).extractLsb' 0 5)) = s2 := by
  cases s2 with
  | reg q =>
    have h : (shortBits r (.reg q)).getLsbD 13 = false := by
      simp only [shortBits, src2Bits, BitVec.getLsbD_append]; simp
    rw [h]; simp only [Bool.false_eq_true, if_false]; congr 1
    apply BitVec.eq_of_getLsbD_eq; intro k hk
    simp only [shortBits, src2Bits, BitVec.getLsbD_append, BitVec.getLsbD_extractLsb']
    simp [hk]; omega
  | imm b =>
    have h : (shortBits r (.imm b)).getLsbD 13 = true := by
      simp only [shortBits, src2Bits, BitVec.getLsbD_append]; simp
    rw [h]; simp only [if_true]; congr 1
    apply BitVec.eq_of_getLsbD_eq; intro k hk
    simp only [shortBits, src2Bits, BitVec.getLsbD_append, BitVec.getLsbD_extractLsb']
    simp [hk]; omega

theorem condBits_cond (c : Cond) : condOfCode ((condBits c).extractLsb' 0 4) = c := by cases c <;> rfl

end Sys2Proof
end

