-- ==== Sys2Proof/Laws/PerInstr.lean ====
section
/-! SUPPORT. One lemma per instruction: under every opcode map the top byte of its word is the opcode the map gives
its mnemonic, then its SCC bit (R91, R98). -/

/-- Bits 31:24 of the word of an instruction (R91): the opcode of its mnemonic and its SCC bit. -/
def Sys2Proof.Laws.EncodedHeader.Statement (i : Sys2Proof.Instr) : Prop :=
  ∀ m : Sys2Proof.OpcodeMap,
    Sys2Proof.opField (Sys2Proof.encodeWith m i) = m.op i.mnemonic ∧
      Sys2Proof.sccField (Sys2Proof.encodeWith m i) = i.scc

open Sys2Proof

theorem Sys2Proof.Laws.EncodedHeader.calli (scc : Bool) (rd : RegName) :
    Sys2Proof.Laws.EncodedHeader.Statement (.calli scc rd) :=
  fun m => ⟨opField_encodeWith m _, sccField_encodeWith m _⟩

theorem Sys2Proof.Laws.EncodedHeader.getpsw (scc : Bool) (rd : RegName) (s2 : Src2) :
    Sys2Proof.Laws.EncodedHeader.Statement (.getpsw scc rd s2) :=
  fun m => ⟨opField_encodeWith m _, sccField_encodeWith m _⟩

theorem Sys2Proof.Laws.EncodedHeader.getlpc (scc : Bool) (rd : RegName) :
    Sys2Proof.Laws.EncodedHeader.Statement (.getlpc scc rd) :=
  fun m => ⟨opField_encodeWith m _, sccField_encodeWith m _⟩

theorem Sys2Proof.Laws.EncodedHeader.putpsw (scc : Bool) (rs1 : RegName) (s2 : Src2) :
    Sys2Proof.Laws.EncodedHeader.Statement (.putpsw scc rs1 s2) :=
  fun m => ⟨opField_encodeWith m _, sccField_encodeWith m _⟩

theorem Sys2Proof.Laws.EncodedHeader.callx (scc : Bool) (rd rs1 : RegName) (s2 : Src2) :
    Sys2Proof.Laws.EncodedHeader.Statement (.callx scc rd rs1 s2) :=
  fun m => ⟨opField_encodeWith m _, sccField_encodeWith m _⟩

theorem Sys2Proof.Laws.EncodedHeader.callr (scc : Bool) (rd : RegName) (imm19 : BitVec 19) :
    Sys2Proof.Laws.EncodedHeader.Statement (.callr scc rd imm19) :=
  fun m => ⟨opField_encodeWith m _, sccField_encodeWith m _⟩

theorem Sys2Proof.Laws.EncodedHeader.jmpx (scc : Bool) (cond : Cond) (rs1 : RegName) (s2 : Src2) :
    Sys2Proof.Laws.EncodedHeader.Statement (.jmpx scc cond rs1 s2) :=
  fun m => ⟨opField_encodeWith m _, sccField_encodeWith m _⟩

theorem Sys2Proof.Laws.EncodedHeader.jmpr (scc : Bool) (cond : Cond) (imm19 : BitVec 19) :
    Sys2Proof.Laws.EncodedHeader.Statement (.jmpr scc cond imm19) :=
  fun m => ⟨opField_encodeWith m _, sccField_encodeWith m _⟩

theorem Sys2Proof.Laws.EncodedHeader.ret (scc : Bool) (cond : Cond) (rs1 : RegName) (s2 : Src2) :
    Sys2Proof.Laws.EncodedHeader.Statement (.ret scc cond rs1 s2) :=
  fun m => ⟨opField_encodeWith m _, sccField_encodeWith m _⟩

theorem Sys2Proof.Laws.EncodedHeader.reti (scc : Bool) (cond : Cond) (rs1 : RegName) (s2 : Src2) :
    Sys2Proof.Laws.EncodedHeader.Statement (.reti scc cond rs1 s2) :=
  fun m => ⟨opField_encodeWith m _, sccField_encodeWith m _⟩

theorem Sys2Proof.Laws.EncodedHeader.sll (scc : Bool) (rd rs1 : RegName) (s2 : Src2) :
    Sys2Proof.Laws.EncodedHeader.Statement (.sll scc rd rs1 s2) :=
  fun m => ⟨opField_encodeWith m _, sccField_encodeWith m _⟩

theorem Sys2Proof.Laws.EncodedHeader.sra (scc : Bool) (rd rs1 : RegName) (s2 : Src2) :
    Sys2Proof.Laws.EncodedHeader.Statement (.sra scc rd rs1 s2) :=
  fun m => ⟨opField_encodeWith m _, sccField_encodeWith m _⟩

theorem Sys2Proof.Laws.EncodedHeader.srl (scc : Bool) (rd rs1 : RegName) (s2 : Src2) :
    Sys2Proof.Laws.EncodedHeader.Statement (.srl scc rd rs1 s2) :=
  fun m => ⟨opField_encodeWith m _, sccField_encodeWith m _⟩

theorem Sys2Proof.Laws.EncodedHeader.ldhi (scc : Bool) (rd : RegName) (imm19 : BitVec 19) :
    Sys2Proof.Laws.EncodedHeader.Statement (.ldhi scc rd imm19) :=
  fun m => ⟨opField_encodeWith m _, sccField_encodeWith m _⟩

theorem Sys2Proof.Laws.EncodedHeader.and (scc : Bool) (rd rs1 : RegName) (s2 : Src2) :
    Sys2Proof.Laws.EncodedHeader.Statement (.and scc rd rs1 s2) :=
  fun m => ⟨opField_encodeWith m _, sccField_encodeWith m _⟩

theorem Sys2Proof.Laws.EncodedHeader.or (scc : Bool) (rd rs1 : RegName) (s2 : Src2) :
    Sys2Proof.Laws.EncodedHeader.Statement (.or scc rd rs1 s2) :=
  fun m => ⟨opField_encodeWith m _, sccField_encodeWith m _⟩

theorem Sys2Proof.Laws.EncodedHeader.xor (scc : Bool) (rd rs1 : RegName) (s2 : Src2) :
    Sys2Proof.Laws.EncodedHeader.Statement (.xor scc rd rs1 s2) :=
  fun m => ⟨opField_encodeWith m _, sccField_encodeWith m _⟩

theorem Sys2Proof.Laws.EncodedHeader.add (scc : Bool) (rd rs1 : RegName) (s2 : Src2) :
    Sys2Proof.Laws.EncodedHeader.Statement (.add scc rd rs1 s2) :=
  fun m => ⟨opField_encodeWith m _, sccField_encodeWith m _⟩

theorem Sys2Proof.Laws.EncodedHeader.addc (scc : Bool) (rd rs1 : RegName) (s2 : Src2) :
    Sys2Proof.Laws.EncodedHeader.Statement (.addc scc rd rs1 s2) :=
  fun m => ⟨opField_encodeWith m _, sccField_encodeWith m _⟩

theorem Sys2Proof.Laws.EncodedHeader.sub (scc : Bool) (rd rs1 : RegName) (s2 : Src2) :
    Sys2Proof.Laws.EncodedHeader.Statement (.sub scc rd rs1 s2) :=
  fun m => ⟨opField_encodeWith m _, sccField_encodeWith m _⟩

theorem Sys2Proof.Laws.EncodedHeader.subc (scc : Bool) (rd rs1 : RegName) (s2 : Src2) :
    Sys2Proof.Laws.EncodedHeader.Statement (.subc scc rd rs1 s2) :=
  fun m => ⟨opField_encodeWith m _, sccField_encodeWith m _⟩

theorem Sys2Proof.Laws.EncodedHeader.subi (scc : Bool) (rd rs1 : RegName) (s2 : Src2) :
    Sys2Proof.Laws.EncodedHeader.Statement (.subi scc rd rs1 s2) :=
  fun m => ⟨opField_encodeWith m _, sccField_encodeWith m _⟩

theorem Sys2Proof.Laws.EncodedHeader.subci (scc : Bool) (rd rs1 : RegName) (s2 : Src2) :
    Sys2Proof.Laws.EncodedHeader.Statement (.subci scc rd rs1 s2) :=
  fun m => ⟨opField_encodeWith m _, sccField_encodeWith m _⟩

theorem Sys2Proof.Laws.EncodedHeader.ldxw (scc : Bool) (rd rs1 : RegName) (s2 : Src2) :
    Sys2Proof.Laws.EncodedHeader.Statement (.ldxw scc rd rs1 s2) :=
  fun m => ⟨opField_encodeWith m _, sccField_encodeWith m _⟩

theorem Sys2Proof.Laws.EncodedHeader.ldrw (scc : Bool) (rd : RegName) (imm19 : BitVec 19) :
    Sys2Proof.Laws.EncodedHeader.Statement (.ldrw scc rd imm19) :=
  fun m => ⟨opField_encodeWith m _, sccField_encodeWith m _⟩

theorem Sys2Proof.Laws.EncodedHeader.lxhu (scc : Bool) (rd rs1 : RegName) (s2 : Src2) :
    Sys2Proof.Laws.EncodedHeader.Statement (.lxhu scc rd rs1 s2) :=
  fun m => ⟨opField_encodeWith m _, sccField_encodeWith m _⟩

theorem Sys2Proof.Laws.EncodedHeader.lrhu (scc : Bool) (rd : RegName) (imm19 : BitVec 19) :
    Sys2Proof.Laws.EncodedHeader.Statement (.lrhu scc rd imm19) :=
  fun m => ⟨opField_encodeWith m _, sccField_encodeWith m _⟩

theorem Sys2Proof.Laws.EncodedHeader.lxhs (scc : Bool) (rd rs1 : RegName) (s2 : Src2) :
    Sys2Proof.Laws.EncodedHeader.Statement (.lxhs scc rd rs1 s2) :=
  fun m => ⟨opField_encodeWith m _, sccField_encodeWith m _⟩

theorem Sys2Proof.Laws.EncodedHeader.lrhs (scc : Bool) (rd : RegName) (imm19 : BitVec 19) :
    Sys2Proof.Laws.EncodedHeader.Statement (.lrhs scc rd imm19) :=
  fun m => ⟨opField_encodeWith m _, sccField_encodeWith m _⟩

theorem Sys2Proof.Laws.EncodedHeader.lxbu (scc : Bool) (rd rs1 : RegName) (s2 : Src2) :
    Sys2Proof.Laws.EncodedHeader.Statement (.lxbu scc rd rs1 s2) :=
  fun m => ⟨opField_encodeWith m _, sccField_encodeWith m _⟩

theorem Sys2Proof.Laws.EncodedHeader.lrbu (scc : Bool) (rd : RegName) (imm19 : BitVec 19) :
    Sys2Proof.Laws.EncodedHeader.Statement (.lrbu scc rd imm19) :=
  fun m => ⟨opField_encodeWith m _, sccField_encodeWith m _⟩

theorem Sys2Proof.Laws.EncodedHeader.lxbs (scc : Bool) (rd rs1 : RegName) (s2 : Src2) :
    Sys2Proof.Laws.EncodedHeader.Statement (.lxbs scc rd rs1 s2) :=
  fun m => ⟨opField_encodeWith m _, sccField_encodeWith m _⟩

theorem Sys2Proof.Laws.EncodedHeader.lrbs (scc : Bool) (rd : RegName) (imm19 : BitVec 19) :
    Sys2Proof.Laws.EncodedHeader.Statement (.lrbs scc rd imm19) :=
  fun m => ⟨opField_encodeWith m _, sccField_encodeWith m _⟩

theorem Sys2Proof.Laws.EncodedHeader.stxw (scc : Bool) (rd rs1 : RegName) (s2 : Src2) :
    Sys2Proof.Laws.EncodedHeader.Statement (.stxw scc rd rs1 s2) :=
  fun m => ⟨opField_encodeWith m _, sccField_encodeWith m _⟩

theorem Sys2Proof.Laws.EncodedHeader.strw (scc : Bool) (rd : RegName) (imm19 : BitVec 19) :
    Sys2Proof.Laws.EncodedHeader.Statement (.strw scc rd imm19) :=
  fun m => ⟨opField_encodeWith m _, sccField_encodeWith m _⟩

theorem Sys2Proof.Laws.EncodedHeader.stxh (scc : Bool) (rd rs1 : RegName) (s2 : Src2) :
    Sys2Proof.Laws.EncodedHeader.Statement (.stxh scc rd rs1 s2) :=
  fun m => ⟨opField_encodeWith m _, sccField_encodeWith m _⟩

theorem Sys2Proof.Laws.EncodedHeader.strh (scc : Bool) (rd : RegName) (imm19 : BitVec 19) :
    Sys2Proof.Laws.EncodedHeader.Statement (.strh scc rd imm19) :=
  fun m => ⟨opField_encodeWith m _, sccField_encodeWith m _⟩

theorem Sys2Proof.Laws.EncodedHeader.stxb (scc : Bool) (rd rs1 : RegName) (s2 : Src2) :
    Sys2Proof.Laws.EncodedHeader.Statement (.stxb scc rd rs1 s2) :=
  fun m => ⟨opField_encodeWith m _, sccField_encodeWith m _⟩

theorem Sys2Proof.Laws.EncodedHeader.strb (scc : Bool) (rd : RegName) (imm19 : BitVec 19) :
    Sys2Proof.Laws.EncodedHeader.Statement (.strb scc rd imm19) :=
  fun m => ⟨opField_encodeWith m _, sccField_encodeWith m _⟩
end

