-- ==== Sys2Proof/Laws/Step.lean ====
section
/-! SUPPORT. The step and the fetch, by cases (R282). -/

namespace Sys2Proof.Machine

/-- The fetch of an aligned `PC` (R63, R66). -/
theorem fetch_of_aligned (s : State) (ha : s.pc.toNat % 4 = 0) : fetch s = .ok (fetchedWord s) := by
  rw [fetch, (misaligned_eq_false .word s.pc).mpr ha]; rfl

/-- A fetch faults at a misaligned `PC` alone (R66). -/
theorem fetch_error (s : State) (f : Fault) (h : fetch s = .error f) : s.pc.toNat % 4 ≠ 0 := by
  intro ha; rw [fetch_of_aligned s ha] at h; cases h

/-- If a step answers a next state, it accepted an interrupt, or it fetched, decoded and executed an instruction. -/
theorem step_next (s t : State) (h : step s = .next t) :
    (interruptAccepted s = true ∧ t = trapEntry (sampleIrq s)) ∨
      (interruptAccepted s = false ∧
        ∃ w i, fetch (sampleIrq s) = .ok w ∧ decodeWith s.params.opcodeMap w = .ok i ∧
          exec i (sampleIrq s) = .next t) := by
  unfold step stepOf at h
  split at h
  · rename_i hi; cases h; exact .inl ⟨hi, rfl⟩
  · rename_i hi
    refine .inr ⟨by simpa using hi, ?_⟩
    unfold runInstruction at h
    split at h
    · cases h
    · rename_i w hw
      split at h
      · cases h
      · rename_i i hd
        exact ⟨w, i, hw, hd, h⟩

/-- No instruction faults (R73). -/
theorem exec_ne_fault (i : Instr) (s : State) (f : Fault) : exec i s ≠ .fault f := by
  rw [exec_eq]
  unfold conclude raiseTrap
  intro h
  repeat' first | cases h | split at h

/-- Where a step faults: at the fetch, of a misaligned `PC` (R66). -/
theorem step_fault (s : State) (f : Fault) (h : step s = .fault f) : s.pc.toNat % 4 ≠ 0 := by
  unfold step stepOf at h
  split at h
  · cases h
  · unfold runInstruction at h
    split at h
    · rename_i g hg; exact fetch_error (sampleIrq s) g hg
    · split at h
      · cases h
      · exact absurd h (exec_ne_fault _ _ _)

/-- Every refusal of an instruction's effect names the word and its address (R282 sub-step 6a). -/
theorem refusesByName_effectOf (i : Instr) (s : State) : RefusesByName s (effectOf i s) := by
  have onCall : ∀ scc rd ea, RefusesByName s (callEffect scc rd ea s) := fun scc rd ea =>
    refusesByName_alignedTarget s _ _ (refusesByName_windowCheckCall s _ _ (refusesByName_done s _ _))
  have onJump : ∀ scc c ea, RefusesByName s (jumpEffect scc c ea s) := by
    intro scc c ea
    unfold jumpEffect; split
    · exact refusesByName_refuse s _ fun _ _ => rfl
    · exact refusesByName_whenCond s _ _ (refusesByName_alignedTarget s _ _ (refusesByName_done s _ _))
  have onStore : ∀ w scc rd rs1 s2, RefusesByName s (absStore w scc rd rs1 s2 s) := by
    intro w scc rd rs1 s2
    cases s2 with
    | reg r => exact refusesByName_refuse s _ fun _ _ => rfl
    | imm b => exact refusesByName_storeEffect _ _ _ _ s
  have onRel : ∀ w scc rd imm19, RefusesByName s (relStore w scc rd imm19 s) := fun w scc rd imm19 =>
    refusesByName_storeEffect _ _ _ _ s
  cases i with
  | calli scc rd =>
    exact refusesByName_privileged s _ (refusesByName_windowCheckCall s _ _ (refusesByName_done s _ _))
  | getpsw scc rd s2 =>
    simp only [effectOf]; split
    · exact refusesByName_done s _ _
    · exact refusesByName_refuse s _ fun _ _ => rfl
  | getlpc scc rd => exact refusesByName_privileged s _ (refusesByName_done s _ _)
  | putpsw scc rs1 s2 =>
    simp only [effectOf]; split
    · exact refusesByName_refuse s _ fun _ _ => rfl
    · exact refusesByName_privileged s _ (refusesByName_done s _ _)
  | callx scc rd rs1 s2 =>
    simp only [effectOf]; split
    · exact onCall _ _ _
    · exact refusesByName_refuse s _ fun _ _ => rfl
  | callr scc rd imm19 => exact onCall _ _ _
  | jmpx scc cond rs1 s2 => exact onJump _ _ _
  | jmpr scc cond imm19 => exact onJump _ _ _
  | ret scc cond rs1 s2 =>
    simp only [effectOf]; split
    · exact refusesByName_refuse s _ fun _ _ => rfl
    · exact refusesByName_whenCond s _ _ (refusesByName_alignedTarget s _ _
        (refusesByName_windowCheckReturn s _ _ (refusesByName_done s _ _)))
  | reti scc cond rs1 s2 =>
    exact refusesByName_privileged s _ (refusesByName_whenCond s _ _ (refusesByName_alignedTarget s _ _
      (refusesByName_windowCheckReturn s _ _ (refusesByName_done s _ _))))
  | sll scc rd rs1 s2 => exact refusesByName_done s _ _
  | sra scc rd rs1 s2 => exact refusesByName_done s _ _
  | srl scc rd rs1 s2 => exact refusesByName_done s _ _
  | ldhi scc rd imm19 => exact refusesByName_done s _ _
  | and scc rd rs1 s2 => exact refusesByName_done s _ _
  | or scc rd rs1 s2 => exact refusesByName_done s _ _
  | xor scc rd rs1 s2 => exact refusesByName_done s _ _
  | add scc rd rs1 s2 => exact refusesByName_done s _ _
  | addc scc rd rs1 s2 => exact refusesByName_done s _ _
  | sub scc rd rs1 s2 => exact refusesByName_done s _ _
  | subc scc rd rs1 s2 => exact refusesByName_done s _ _
  | subi scc rd rs1 s2 => exact refusesByName_done s _ _
  | subci scc rd rs1 s2 => exact refusesByName_done s _ _
  | ldxw scc rd rs1 s2 => exact refusesByName_loadEffect _ _ _ _ s
  | ldrw scc rd imm19 => exact refusesByName_loadEffect _ _ _ _ s
  | lxhu scc rd rs1 s2 => exact refusesByName_loadEffect _ _ _ _ s
  | lrhu scc rd imm19 => exact refusesByName_loadEffect _ _ _ _ s
  | lxhs scc rd rs1 s2 => exact refusesByName_loadEffect _ _ _ _ s
  | lrhs scc rd imm19 => exact refusesByName_loadEffect _ _ _ _ s
  | lxbu scc rd rs1 s2 => exact refusesByName_loadEffect _ _ _ _ s
  | lrbu scc rd imm19 => exact refusesByName_loadEffect _ _ _ _ s
  | lxbs scc rd rs1 s2 => exact refusesByName_loadEffect _ _ _ _ s
  | lrbs scc rd imm19 => exact refusesByName_loadEffect _ _ _ _ s
  | stxw scc rd rs1 s2 => exact onStore _ _ _ _ _
  | strw scc rd imm19 => exact onRel _ _ _ _
  | stxh scc rd rs1 s2 => exact onStore _ _ _ _ _
  | strh scc rd imm19 => exact onRel _ _ _ _
  | stxb scc rd rs1 s2 => exact onStore _ _ _ _ _
  | strb scc rd imm19 => exact onRel _ _ _ _

/-- Every refusal of an instruction names the fetched word and its address (R282 sub-step 6a). -/
theorem exec_refused_names (i : Instr) (s : State) (r : Refusal) (h : exec i s = .refused r) :
    r.names = some (fetchedWord s, s.pc) := by
  rw [exec_eq] at h
  unfold conclude at h
  split at h
  · cases h; rfl
  · split at h
    · cases h
    · unfold raiseTrap at h
      split at h
      · cases h; rfl
      · split at h
        · cases h; rfl
        · cases h
    · rename_i r' he; cases h; exact refusesByName_effectOf i s r he

/-- The conjuncts of soundness. -/
theorem sound_iff (s : State) :
    s.sound = true ↔ wordAligned s.pc = true ∧ wordAligned s.nxtpc = true ∧ wordAligned s.lstpc = true ∧
      s.regs[0] = 0 ∧ s.mem.wf = true := by
  simp [State.sound, and_assoc]

end Sys2Proof.Machine
end

