-- ==== Sys2Proof/Laws/Traps.lean ====
section
/-! SUPPORT. The trap an effect raises, pattern by pattern, and the trap table over the instructions (R241). -/

namespace Sys2Proof.Machine

/-- The cause of the trap an effect raises, if it raises one. -/
def causeOf : Effect → Option Cause
  | .trap c => some c
  | _ => none

theorem causeOf_iff (e : Effect) (c : Cause) : causeOf e = some c ↔ e = .trap c := by
  cases e <;> simp [causeOf]

theorem causeOf_loadEffect (k : LoadKind) (scc : Bool) (rd : RegName) (ea : Word) (s : State) :
    causeOf (loadEffect k scc rd ea s) =
      if ea.toNat % widthBytes (loadWidth k) = 0 then none else some .misalignedData := by
  split
  · rename_i h
    rw [loadEffect_aligned _ _ _ _ _ h]; rfl
  · rename_i h; rw [loadEffect_misaligned _ _ _ _ _ h]; rfl

theorem causeOf_storeEffect (w : Width) (rd : RegName) (ea : Word) (after : State → State) (s : State) :
    causeOf (storeEffect w rd ea after s) =
      if ea.toNat % widthBytes w = 0 then none else some .misalignedData := by
  split
  · rename_i h
    rw [storeEffect_aligned _ _ _ _ _ h]; rfl
  · rename_i h; rw [storeEffect_misaligned _ _ _ _ _ h]; rfl

theorem causeOf_alignedTarget (ea : Word) (e : Effect) :
    causeOf (alignedTarget ea e) =
      if ea.toNat % 4 = 0 then causeOf e else some .misalignedTarget := by
  split
  · rename_i h; rw [alignedTarget_pass _ _ h]
  · rename_i h; rw [alignedTarget_trap _ _ h]; rfl

theorem causeOf_whenCond (c : Cond) (s : State) (e : Effect) :
    causeOf (whenCond c s e) =
      if decide (condHolds c s.psw = some true) then causeOf e else none := by
  unfold whenCond
  cases h : condHolds c s.psw with
  | none => rfl
  | some b => cases b <;> rfl

theorem causeOf_windowCheckCall (s : State) (w : Window) (e : Effect) (he : causeOf e = none) :
    causeOf (windowCheckCall s w e) =
      if w = s.psw.swp ∧ s.params.windowCheck = .trap then some .windowOverflow else none := by
  unfold windowCheckCall
  by_cases hw : w = s.psw.swp
  · rw [if_pos hw]; cases h : s.params.windowCheck <;> simp [hw, causeOf]
    simpa [causeOf] using he
  · simp [hw, he]

theorem causeOf_windowCheckReturn (s : State) (w : Window) (e : Effect) (he : causeOf e = none) :
    causeOf (windowCheckReturn s w e) =
      if w = s.psw.swp ∧ s.params.windowCheck = .trap then some .windowUnderflow else none := by
  unfold windowCheckReturn
  by_cases hw : w = s.psw.swp
  · rw [if_pos hw]; cases h : s.params.windowCheck <;> simp [hw, causeOf]
    simpa [causeOf] using he
  · simp [hw, he]

theorem causeOf_privileged (s : State) (e : Effect) :
    causeOf (privileged s e) =
      if s.psw.s then causeOf e else some .privileged := by
  unfold privileged; split <;> rfl

/-- A byte access is never misaligned (R65). -/
theorem byteNeverTraps {n : Nat} : (if n % 1 = 0 then none else some Cause.misalignedData) = none := by
  rw [Nat.mod_one, if_pos rfl]

/-- The trap table of R241 says of every instruction what its effect does. -/
theorem trapCondition_eq (i : Instr) (s : State) : trapCondition i s = causeOf (effectOf i s) := by
  cases i with
  | calli scc rd => simp only [trapCondition, effectOf]; rw [causeOf_privileged, causeOf_windowCheckCall _ _ _ rfl]; rfl
  | getpsw scc rd s2 => simp only [trapCondition, effectOf]; split <;> rfl
  | getlpc scc rd => simp only [trapCondition, effectOf]; rw [causeOf_privileged]; rfl
  | putpsw scc rs1 s2 =>
    simp only [trapCondition, effectOf]
    cases scc
    · simp only [Bool.false_or, if_false, Bool.false_eq_true, causeOf_privileged]; rfl
    · rfl
  | callx scc rd rs1 s2 =>
     simp only [trapCondition, effectOf]; split
     · simp only [callEffect]; rw [causeOf_alignedTarget, causeOf_windowCheckCall _ _ _ rfl]; rfl
     · rfl
  | callr scc rd imm => simp only [trapCondition, effectOf, callEffect]; rw [causeOf_alignedTarget, causeOf_windowCheckCall _ _ _ rfl]; rfl
  | jmpx scc c rs1 s2 =>
    simp only [trapCondition, effectOf, jumpEffect]
    cases scc
    · simp only [Bool.not_false, Bool.true_and, if_false, Bool.false_eq_true]; rw [causeOf_whenCond, causeOf_alignedTarget]; rfl
    · rfl
  | jmpr scc c imm =>
    simp only [trapCondition, effectOf, jumpEffect]
    cases scc
    · simp only [Bool.not_false, Bool.true_and, if_false, Bool.false_eq_true]; rw [causeOf_whenCond, causeOf_alignedTarget]; rfl
    · rfl
  | ret scc c rs1 s2 =>
    simp only [trapCondition, effectOf]
    cases scc
    · simp only [Bool.not_false, Bool.true_and, if_false, Bool.false_eq_true]; rw [causeOf_whenCond, causeOf_alignedTarget, causeOf_windowCheckReturn _ _ _ rfl]; rfl
    · rfl
  | reti scc c rs1 s2 =>
    simp only [trapCondition, effectOf]; rw [causeOf_privileged, causeOf_whenCond, causeOf_alignedTarget, causeOf_windowCheckReturn _ _ _ rfl]
    cases s.psw.s <;> rfl
  | sll => rfl
  | sra => rfl
  | srl => rfl
  | ldhi => rfl
  | and => rfl
  | or => rfl
  | xor => rfl
  | add => rfl
  | addc => rfl
  | sub => rfl
  | subc => rfl
  | subi => rfl
  | subci => rfl
  | ldxw scc rd rs1 s2 => exact (causeOf_loadEffect .word _ _ _ _).symm
  | ldrw scc rd imm => exact (causeOf_loadEffect .word _ _ _ _).symm
  | lxhu scc rd rs1 s2 => exact (causeOf_loadEffect .halfU _ _ _ _).symm
  | lrhu scc rd imm => exact (causeOf_loadEffect .halfU _ _ _ _).symm
  | lxhs scc rd rs1 s2 => exact (causeOf_loadEffect .halfS _ _ _ _).symm
  | lrhs scc rd imm => exact (causeOf_loadEffect .halfS _ _ _ _).symm
  | lxbu scc rd rs1 s2 => exact ((causeOf_loadEffect .byteU _ _ _ _).trans byteNeverTraps).symm
  | lrbu scc rd imm => exact ((causeOf_loadEffect .byteU _ _ _ _).trans byteNeverTraps).symm
  | lxbs scc rd rs1 s2 => exact ((causeOf_loadEffect .byteS _ _ _ _).trans byteNeverTraps).symm
  | lrbs scc rd imm => exact ((causeOf_loadEffect .byteS _ _ _ _).trans byteNeverTraps).symm
  | stxw scc rd rs1 s2 => cases s2 with
    | reg r => rfl
    | imm b => exact (causeOf_storeEffect .word _ _ _ _).symm
  | strw scc rd imm => exact (causeOf_storeEffect .word _ _ _ _).symm
  | stxh scc rd rs1 s2 => cases s2 with
    | reg r => rfl
    | imm b => exact (causeOf_storeEffect .half _ _ _ _).symm
  | strh scc rd imm => exact (causeOf_storeEffect .half _ _ _ _).symm
  | stxb scc rd rs1 s2 => cases s2 with
    | reg r => rfl
    | imm b => exact ((causeOf_storeEffect .byte _ _ _ _).trans byteNeverTraps).symm
  | strb scc rd imm => exact ((causeOf_storeEffect .byte _ _ _ _).trans byteNeverTraps).symm

end Sys2Proof.Machine
end

