-- ==== Sys2Proof/Tests/Slice0.lean ====
section
/-! SUPPORT. Tests: ill-formed instructions refused, words of the spec's encodings decoded, single steps with the
results of spec/95_test_vectors.md, and for each statement a state that meets its hypotheses. -/

namespace Sys2Proof.Machine

/-! ### Well-formedness: one ill-formed instruction for each check (R104, R140) -/

theorem test_refused_scc_on :
    [(.putpsw true 16 (.imm 0) : Instr), .jmpx true .alw 16 (.imm 0), .jmpr true .alw 16, .ret true .alw 31 (.imm 8)].all
      (fun i => !i.wellFormed) = true := by decide

theorem test_refused_src2_not_r0 :
    [(.getpsw false 16 (.imm 0) : Instr), .getpsw false 16 (.reg 1), .callx false 31 16 (.reg 1)].all
      (fun i => !i.wellFormed) = true := by decide

theorem test_refused_src2_not_imm :
    [(.stxw false 17 16 (.reg 18) : Instr), .stxh false 17 16 (.reg 18), .stxb false 17 16 (.reg 18)].all
      (fun i => !i.wellFormed) = true := by decide

theorem test_refused_cond0000 :
    [(.jmpx false .c0000 16 (.imm 0) : Instr), .jmpr false .c0000 16, .ret false .c0000 31 (.imm 8),
      .reti false .c0000 24 (.imm 0)].all (fun i => !i.wellFormed) = true := by decide

theorem test_wellFormed :
    [(.putpsw false 16 (.imm 0) : Instr), .getpsw true 16 (.reg 0), .callx true 31 16 (.reg 0),
      .stxw true 17 16 (.imm 8), .jmpr false .alw 0, .reti true .alw 24 (.imm 0)].all Instr.wellFormed = true := by
  decide

/-! ### Decoding: the words of the vectors of spec/95, at least one for every instruction -/

/-- Whether each word decodes to the instruction beside it. -/
def decodesAll (l : List (Nat × Instr)) : Bool := l.all fun p => decodeTableWord 32 p.1 == some p.2

theorem test_decode_system :
    decodesAll [(0x02C80000, .calli false 25), (0x05800000, .getpsw true 16 (.reg 0)), (0x07C00000, .getlpc true 24),
      (0x08042000, .putpsw false 16 (.imm 0)), (0x1E7E2000, .reti false .alw 24 (.imm 0))] = true := by decide

theorem test_decode_control :
    decodesAll [(0x10FC0000, .callx false 31 16 (.reg 0)), (0x12F80020, .callr false 31 0x20),
      (0x18582108, .jmpx false .ne 0 (.imm 0x108)), (0x187C0011, .jmpx false .alw 16 (.reg 17)),
      (0x1A780010, .jmpr false .alw 0x10), (0x1C7FE008, .ret false .alw 31 (.imm 8))] = true := by decide

theorem test_decode_shift_logic :
    decodesAll [(0x238C0012, .sll true 17 16 (.reg 18)), (0x258C201F, .sra true 17 16 (.imm 31)),
      (0x278C0012, .srl true 17 16 (.reg 18)), (0x29812345, .ldhi true 16 0x12345),
      (0x2A940011, .and false 18 16 (.reg 17)), (0x2D842345, .or true 16 16 (.imm 0x345)),
      (0x2F8C3FFF, .xor true 17 16 (.imm 0x1FFF))] = true := by decide

theorem test_decode_arithmetic :
    decodesAll [(0x308C7000, .add false 17 17 (.imm 0x1000)), (0x339C4012, .addc true 19 17 (.reg 18)),
      (0x39940011, .sub true 18 16 (.reg 17)), (0x3B940011, .subc true 18 16 (.reg 17)),
      (0x3D8C2064, .subi true 17 16 (.imm 100)), (0x3F940011, .subci true 18 16 (.reg 17))] = true := by decide

theorem test_decode_loads :
    decodesAll [(0x4D8C2000, .ldxw true 17 16 (.imm 0)), (0x4E880040, .ldrw false 17 0x40),
      (0x508C2002, .lxhu false 17 16 (.imm 2)), (0x52880042, .lrhu false 17 0x42),
      (0x548C2003, .lxhs false 17 16 (.imm 3)), (0x56880042, .lrhs false 17 0x42),
      (0x59042003, .lxbu true 0 16 (.imm 3)), (0x5A880043, .lrbu false 17 0x43),
      (0x5D8C2000, .lxbs true 17 16 (.imm 0)), (0x5E880043, .lrbs false 17 0x43)] = true := by decide

theorem test_decode_stores :
    decodesAll [(0x6D8C2008, .stxw true 17 16 (.imm 8)), (0x6F880040, .strw true 17 0x40),
      (0x748C2002, .stxh false 17 16 (.imm 2)), (0x76880042, .strh false 17 0x42),
      (0x7C042001, .stxb false 0 16 (.imm 1)), (0x7E880043, .strb false 17 0x43)] = true := by decide

/-- Spec/95 section 2.8: ignored bits, and words that are no instruction. -/
theorem test_decode_ignored_and_unassigned :
    decodeTableWord 32 0x30000000 = decodeTableWord 32 0x30001FE0 ∧
      decodeTableWord 32 0x1AF80010 = decodeTableWord 32 0x1A780010 ∧
      decodeTableWord 32 0 = none ∧ decodeTableWord 32 0xFFFFFFFF = none := by decide

/-- R108 and the vectors: the encoder writes those words, ignored bits as zeros. -/
theorem test_encode :
    encode (.calli false 25) = 0x02C80000 ∧ encode (.jmpx false .ne 0 (.imm 0x108)) = 0x18582108 ∧
      encode (.sll true 17 16 (.reg 18)) = 0x238C0012 ∧ encode (.strw true 17 0x40) = 0x6F880040 := by decide

/-! ### Single steps -/

/-- Reset with the counters at `pc`, and a status word. -/
def startAt (pc psw : Nat) : State :=
  { State.reset with
    pc := BitVec.ofNat 32 pc
    nxtpc := BitVec.ofNat 32 (pc + 4)
    psw := pswOfBits (BitVec.ofNat 13 psw) }

/-- The step of `s` on a word. -/
def stepOn (s : State) (w : Nat) : Result := step (s.withFetchWord 32 w)

/-- Whether an outcome is a next state with a property. -/
def nextIs (r : Result) (f : State → Bool) : Bool :=
  match r with
  | .next t => f t
  | _ => false

/-- Whether an outcome is a refusal. -/
def refuses (r : Result) (x : Refusal) : Bool :=
  match r with
  | .refused y => x == y
  | _ => false

/-- The word `w` at `0x100` with flags `f`, `r16 = a`, `r17 = b`, `r18 = c`. -/
def alu (w f a b c : Nat) : Result :=
  stepOn (((((startAt 0x100 (0x20 + f)).writeX 16 (BitVec.ofNat 32 a)).writeX 17 (BitVec.ofNat 32 b)).writeX 18
    (BitVec.ofNat 32 c))) w

/-- Whether register `rd` reads `v` and the flags `Z N V C` read `f`. -/
def gives (r : Result) (rd : RegName) (v : Word) (f : Nat) : Bool :=
  nextIs r fun t => t.x rd == v && (pswBits t.psw).toNat % 16 == f

theorem test_sll :
    gives (alu 0x238C3FFF 0 1 0 0) 17 0x80000000 4 && gives (alu 0x238C0012 0 1 0 0x20) 17 1 0 = true := by decide

theorem test_srl :
    gives (alu 0x278C0012 0 0x80000000 0 0x1F) 17 1 0 && gives (alu 0x278C2004 0 0xF 0 0) 17 0 8 = true := by decide

theorem test_sra :
    gives (alu 0x258C201F 0 0x80000000 0 0) 17 0xFFFFFFFF 4 && gives (alu 0x258C2004 0 0x7FFFFFFF 0 0) 17 0x07FFFFFF 0
      = true := by decide

theorem test_ldhi : gives (alu 0x2987FFFF 0 0 0 0) 16 0xFFFFE000 4 && gives (alu 0x29800000 15 0 0 0) 16 0 8 = true := by
  decide

theorem test_and :
    gives (alu 0x2B943FFF 0 0x80000001 0 0) 18 0x80000001 4 && gives (alu 0x2A940011 15 0xFF00 0xFF0 0) 18 0xF00 15
      = true := by decide

theorem test_or :
    gives (alu 0x2D842345 0 0x2468A000 0 0) 16 0x2468A345 0 && gives (alu 0x2D8C3000 0 1 0 0) 17 0xFFFFF001 4
      = true := by decide

theorem test_xor :
    gives (alu 0x2F040011 3 5 5 0) 0 0 8 && gives (alu 0x2F8C3FFF 0 0xFFFF 0 0) 17 0xFFFF0000 4 = true := by decide

theorem test_add :
    gives (alu 0x31940011 0 0x7FFFFFFF 1 0) 18 0x80000000 6 && gives (alu 0x31940011 0 0x80000000 0x80000000 0) 18 0 11
      = true := by decide

theorem test_addc :
    gives (alu 0x339C4012 1 0 0xFFFFFFFF 0xFFFFFFFF) 19 0xFFFFFFFF 5 && gives (alu 0x339C4012 1 0 0x7FFFFFFF 0) 19
      0x80000000 6 = true := by decide

theorem test_sub :
    gives (alu 0x39940011 0 5 7 0) 18 0xFFFFFFFE 4 && gives (alu 0x39940011 0 0x80000000 1 0) 18 0x7FFFFFFF 3
      = true := by decide

theorem test_subc :
    gives (alu 0x3B940011 1 0xFFFFFFFF 0 0) 18 0 9 && gives (alu 0x3B940011 1 0x7FFFFFFF 0xFFFFFFFF 0) 18 0x80000001 6
      = true := by decide

theorem test_subi :
    gives (alu 0x3D8C2000 0 0x80000000 0 0) 17 0x80000000 6 && gives (alu 0x3D8C2064 0 1 0 0) 17 0x63 1 = true := by
  decide

theorem test_subci :
    gives (alu 0x3F940011 0 3 0xA 0) 18 7 1 && gives (alu 0x3F940011 0 0 0 0) 18 0 9 = true := by decide

/-- Spec/95 2.2, the borrow column. -/
theorem test_subc_borrow :
    gives (stepOn { ((startAt 0x100 0x20).writeX 16 0x80000000) with params := { defaultParams with subcForm := .borrow } }
      0x3B940011) 18 0x7FFFFFFF 3 = true := by decide

/-- The memory of spec/95 2.6 and 2.7: a word at `0x1000`, `r16 = 0x1000`, `r17 = 0x8123F4A5`. -/
def dataAt (e : Endian) (pc psw : Nat) : State :=
  let s := ((startAt pc psw).writeX 16 0x1000).writeX 17 0x8123F4A5
  { s with
    mem := memWrite e [] .word 0x1000 0x8123F4A5
    params := { defaultParams with endian := e } }

theorem test_ldxw :
    gives (stepOn (dataAt .big 0x100 0x20) 0x4D8C2000) 17 0x8123F4A5 4 &&
      nextIs (stepOn (dataAt .big 0x100 0x20) 0x4C8C2002) (fun t =>
        pswBits t.psw == 0x1C30 && t.x 25 == 0x100 && t.lstpc == 0x104 && t.pc == 0x80000000) = true := by decide

theorem test_ldrw :
    gives (stepOn (dataAt .little 0xFC0 0x20) 0x4E880040) 17 0x8123F4A5 0 &&
      gives (stepOn (dataAt .big 0x100 0x20) 0x4E880000) 17 0x4E880000 0 = true := by decide

theorem test_lxhu :
    gives (stepOn (dataAt .big 0x100 0x20) 0x508C2002) 17 0xF4A5 0 &&
      gives (stepOn (dataAt .little 0x100 0x20) 0x508C2002) 17 0x8123 0 = true := by decide

theorem test_lrhu : gives (stepOn (dataAt .little 0xFC0 0x20) 0x52880042) 17 0x8123 0 = true := by decide

theorem test_lxhs : gives (stepOn (dataAt .big 0x100 0x20) 0x548C2000) 17 0xFFFF8123 0 = true := by decide

theorem test_lrhs : gives (stepOn (dataAt .big 0xFC0 0x20) 0x56880042) 17 0xFFFFF4A5 0 = true := by decide

theorem test_lxbu : gives (stepOn (dataAt .big 0x100 0x20) 0x588C2003) 17 0xA5 0 = true := by decide

theorem test_lrbu : gives (stepOn (dataAt .little 0xFC0 0x20) 0x5A880043) 17 0x81 0 = true := by decide

theorem test_lxbs : gives (stepOn (dataAt .little 0x100 0x20) 0x5C8C2001) 17 0xFFFFFFF4 0 = true := by decide

theorem test_lrbs : gives (stepOn (dataAt .big 0xFC0 0x20) 0x5E880043) 17 0xFFFFFFA5 0 = true := by decide

/-- Whether memory holds the word `v` at `0x1000` after a step that keeps its form. -/
def storesWord (r : Result) (v : Word) : Bool :=
  nextIs r fun t => readWord t.params.endian t.mem 0x1000 == v && t.mem.wf

/-- The state of the stores, with the word at `0x1000` cleared. -/
def emptyAt (e : Endian) (pc psw : Nat) : State := { dataAt e pc psw with mem := [] }

theorem test_stxw :
    storesWord (stepOn (emptyAt .little 0x100 0x23) 0x6D8C2000) 0x8123F4A5 &&
      gives (stepOn (emptyAt .big 0x100 0x23) 0x6D8C2008) 17 0x8123F4A5 4 = true := by decide

theorem test_strw :
    storesWord (stepOn (emptyAt .big 0xFC0 0x20) 0x6E880040) 0x8123F4A5 &&
      nextIs (stepOn (emptyAt .big 0xFC0 0x2C) 0x6F880040) (fun t => !t.psw.z && !t.psw.n) = true := by decide

theorem test_stxh :
    storesWord (stepOn (emptyAt .big 0x100 0x20) 0x748C2002) 0xF4A5 &&
      storesWord (stepOn (emptyAt .little 0x100 0x20) 0x748C2002) 0xF4A50000 = true := by decide

theorem test_strh : storesWord (stepOn (emptyAt .big 0xFC0 0x20) 0x76880042) 0xF4A5 = true := by decide

theorem test_stxb :
    storesWord (stepOn (emptyAt .big 0x100 0x20) 0x7C8C2001) 0x00A50000 &&
      storesWord (stepOn (dataAt .big 0x100 0x20) 0x7C042001) 0x8100F4A5 = true := by decide

theorem test_strb : storesWord (stepOn (emptyAt .little 0xFC0 0x20) 0x7E880043) 0xA5000000 = true := by decide

/-- Whether the status word and the counters read as given. -/
def leaves (r : Result) (psw lst pc nx : Nat) : Bool :=
  nextIs r fun t => (pswBits t.psw).toNat == psw && t.lstpc.toNat == lst && t.pc.toNat == pc && t.nxtpc.toNat == nx

theorem test_callx :
    leaves (stepOn ((startAt 0x120 0x1420).writeX 16 0x400) 0x10FC0000) 0x1020 0x120 0x124 0x400 &&
      nextIs (stepOn ((startAt 0x120 0x1420).writeX 16 0x400) 0x10FC0000) (fun t => t.xw 5 15 == 0x120) = true := by
  decide

theorem test_callx_misaligned :
    leaves (stepOn ((startAt 0x120 0x1420).writeX 16 0x402) 0x10FC0000) 0x1030 0x124 0x80000000 0x80000004 = true := by
  decide

theorem test_callr :
    leaves (stepOn (startAt 0x100 0x1CA0) 0x12FFFFFC) 0x18A0 0x100 0x104 0x800FC &&
      leaves (stepOn { startAt 0x100 0x1CA0 with params := { defaultParams with imm19RelExt := .sign } } 0x12FFFFFC)
        0x18A0 0x100 0x104 0xFC = true := by decide

theorem test_jmpx :
    leaves (stepOn (startAt 0x200 0x20) 0x18582108) 0x20 0x200 0x204 0x108 &&
      leaves (stepOn (startAt 0x200 0x28) 0x18582108) 0x28 0x200 0x204 0x208 = true := by decide

theorem test_jmpr :
    leaves (stepOn (startAt 0x200 0x20) 0x1AF80010) 0x20 0x200 0x204 0x210 &&
      refuses (stepOn (startAt 0x200 0x20) 0x1A000010) (.cond0000 0x1A000010 0x200) = true := by decide

theorem test_ret :
    leaves (stepOn ((startAt 0x200 0x1CA0).writeX 31 0x100) 0x1C7FE008) 0xA0 0x200 0x204 0x108 &&
      refuses (stepOn ((startAt 0x200 0x1C20).writeX 31 0x100) 0x1C7FE008)
        (.windowUnderflow 0x1C7FE008 0x200) = true := by decide

theorem test_calli :
    leaves (stepOn { startAt 0x110 0xC20 with lstpc := 0x10C } 0x02C80000) 0x820 0x110 0x80000000 0x80000004 &&
      nextIs (stepOn { startAt 0x110 0xC20 with lstpc := 0x10C } 0x02C80000) (fun t => t.xw 2 25 == 0x10C) = true := by
  decide

theorem test_calli_user :
    leaves (stepOn { startAt 0x110 0xC00 with lstpc := 0x10C } 0x02C80000) 0x820 0x114 0x80000000 0x80000004 &&
      refuses (stepOn (startAt 0x110 0xD20) 0x02C80000) (.windowOverflow 0x02C80000 0x110) = true := by decide

theorem test_getlpc :
    gives (stepOn { startAt 0x100 0x2F with lstpc := 0x204 } 0x07C00000) 24 0x204 3 &&
      leaves (stepOn (startAt 0x100 0) 0x06C00000) 0x1C20 0x104 0x80000000 0x80000004 = true := by decide

theorem test_putpsw :
    nextIs (stepOn ((startAt 0x100 0x20).writeX 16 0x1C60) 0x08042000) (fun t =>
      t.pswNext == some (pswOfBits 0x1C60) && pswBits t.psw == 0x20) &&
      refuses (stepOn (startAt 0x100 0x20) 0x09042000) (.putpswWithScc 0x09042000 0x100) = true := by decide

theorem test_reti :
    leaves (stepOn ((startAt 0x100 0x820).writeX 24 0x114) 0x1E7E2000) 0xC40 0x100 0x104 0x114 &&
      leaves (stepOn ((startAt 0x100 0x820).writeX 24 0x114) 0x1E7E2002) 0x430 0x104 0x80000000 0x80000004
      = true := by decide

theorem test_getpsw :
    gives (stepOn (startAt 0x100 0x1C69) 0x05800000) 16 0xFFFFFC69 4 &&
      refuses (stepOn (startAt 0x100 0x20) 0x04800001) (.getpswOperand 0x04800001 0x100) = true := by decide

/-- Spec/95 2.5 rows 24 and 25. -/
theorem test_after_putpsw :
    refuses (stepOn { startAt 0x100 0x20 with pswNext := some (pswOfBits 0x20) } 0x39000000)
        (.afterPutpsw 0x39000000 0x100) &&
      refuses (stepOn { startAt 0x100 0x20 with pswNext := some (pswOfBits 0x20) } 0x4C882002)
        (.trapAfterPutpsw .misalignedData 0x4C882002 0x100) = true := by decide

/-- The truth table of spec/95 2.3, rows `gt`, `lt`, `los`, `his`. -/
theorem test_conditions :
    ([Cond.gt, .lt, .los, .his].map fun c =>
      (List.range 16).map fun f => condHolds c (pswOfBits (BitVec.ofNat 13 f)) == some true) =
      [[true, true, false, false, false, false, true, true] ++ List.replicate 8 false,
       [false, false, true, true, true, true, false, false, false, false, true, true, true, true, false, false],
       [true, false, true, false, true, false, true, false] ++ List.replicate 8 true,
       (List.range 16).map fun f => f % 2 == 1] := by decide

/-- Spec/95 program P6, the step that accepts the interrupt. -/
theorem test_interrupt :
    leaves (step { startAt 0x114 0x1DE0 with nxtpc := 0x108, irq := [true] }) 0x19B0 0x108 0x80000000 0x80000004
      = true := by decide

/-- A word whose opcode is unassigned is refused, naming the word and the address (R105). -/
theorem test_unassigned : refuses (step State.reset) (.unassignedOpcode 0 0x80000000) = true := by decide

theorem test_defaults_admissible : admissible defaultParams = true := by decide

/-! ### Witnesses: a state and operands that meet the hypotheses of each statement -/

theorem witness_DecodeInvertsEncode :
    defaultOpcodeMap.injective = true ∧
      ({ defaultOpcodeMap with calli := 0x02, getpsw := 0x01 } : OpcodeMap).injective = true := by decide

theorem witness_EncodeInvertsDecodeButIgnoredBits :
    decodeWith defaultOpcodeMap 0x30001FE0 = .ok (.add false 0 0 (.reg 0)) := rfl

theorem witness_IgnoredBitsDoNotDecode :
    decodeWith defaultOpcodeMap 0x1AF80010 = .ok (.jmpr false .alw 0x10) := rfl

theorem witness_OpcodeAloneSelects_assigned :
    decodeWith defaultOpcodeMap 0x30000000 = .ok (.add false 0 0 (.reg 0)) := rfl

theorem witness_OpcodeAloneSelects_unassigned :
    ∀ k : Mnemonic, defaultOpcodeMap.op k ≠ (0xFFFFFFFF : Word).extractLsb' 25 7 := by
  intro k; cases k <;> decide

theorem witness_EightyNineOpcodesUnassigned : defaultOpcodeMap.injective = true := by decide

theorem witness_ResetSound :
    admissible { defaultParams with resetPc := 0xFFFFFFFC, endian := .little } = true := by decide

/-- Reset with `add r16, r0, 5` placed where the first step fetches. -/
def oneAdd : State := State.reset.withFetchWord 32 0x30802005

theorem witness_StepKeepsSound : oneAdd.sound = true ∧ nextIs (step oneAdd) (fun _ => true) = true := by decide

theorem witness_StepKeepsParameters : nextIs (step oneAdd) (fun _ => true) = true := by decide

theorem witness_WindowsOverlap :
    (0 ≤ 5 ∧ 5 ≤ 5) ∧ (phys 0 16 = phys 0 16 ∧ phys 7 25 = phys 7 25) ∧ (0 : RegName).toNat ≤ 9 ∧
      (9 : RegName).toNat ≤ 9 := by decide

theorem witness_SecondOperand :
    (0x308C7000 : Word).getLsbD 13 = true ∧ (0x308C6FFF : Word).getLsbD 13 = true ∧
      (0x238C1FF2 : Word).getLsbD 13 = false := by decide

theorem witness_RelativeAddress_zero : State.reset.params.imm19RelExt = .zero := rfl

theorem witness_RelativeAddress_sign :
    ({ State.reset with params := { defaultParams with imm19RelExt := .sign } } : State).params.imm19RelExt = .sign := rfl

theorem witness_MemoryWriteThenRead :
    Memory.wf [(0xFFFFFFFF, 1)] = true ∧ (0xFFFFFFFC : Word).toNat % widthBytes .word = 0 ∧
      (0xFFFFFFFE : Word).toNat % widthBytes .half = 0 ∧ (0xFFFFFFFF : Word).toNat % widthBytes .byte = 0 ∧
      0xFFFFFFFB < (0xFFFFFFFC : Word).toNat ∧ (0 : Word).toNat + widthBytes .word ≤ 4 := by decide

/-- A state with a `putpsw` pending. -/
def pendingAt (pc psw : Nat) : State := { startAt pc psw with pswNext := some (pswOfBits 0x1C60) }

/-- For the statements on shifts, logic, arithmetic and `ldhi`. -/
theorem witness_register_results :
    ((startAt 0x100 0x20).pswNext = none ∨ true = false) ∧ ((pendingAt 0x100 0x20).pswNext = none ∨ false = false) := by
  decide

/-- A platform that keeps ROM at `0x1000`, nothing at `0x1004` and a device at `0x1008`, four bytes each. -/
def platform (s : State) : State :=
  { s with params := { defaultParams with
      memMap := [⟨0x1000, 4, .rom⟩, ⟨0x1004, 4, .empty 0xFF⟩, ⟨0x1008, 4, .device⟩] } }

/-- Loads and stores of a platform that is not all RAM: ROM reads and does not change, an empty address reads as the
platform says, a device answers something and takes a store; none of them stops the machine (R72, R73). -/
theorem test_memory_map :
    let s := platform (dataAt .big 0x100 0x20)
    gives (stepOn s 0x4D8C2000) 17 0x8123F4A5 4 && gives (stepOn s 0x4C8C2004) 17 0xFFFFFFFF 0 &&
      storesWord (stepOn (s.writeX 17 0) 0x6C8C2000) 0x8123F4A5 &&
      nextIs (stepOn s 0x4C8C2008) (fun t => t.pc == 0x104) && nextIs (stepOn s 0x6C8C2008) (fun t => t.mem.wf)
      = true := by decide

/-- A fetch from an address that holds nothing: the word of the platform's bytes is refused, with its address. -/
theorem test_empty_fetch :
    refuses (step (platform (startAt 0x1004 0x20))) (.unassignedOpcode 0xFFFFFFFF 0x1004) = true := by decide

theorem witness_AbsoluteLoadResults :
    let s := platform (dataAt .big 0x100 0x20)
    (s.pswNext = none ∨ true = false) ∧
      ((s.x 16 + src2 s (.imm 0)).toNat % 4 = 0 ∧ holdsMemory s.params (s.x 16 + src2 s (.imm 0)) 4 = true) ∧
      ((s.x 16 + src2 s (.imm 6)).toNat % 2 = 0 ∧ readsEmpty s.params (s.x 16 + src2 s (.imm 6)) 2 0xFF = true) ∧
      ((s.x 16 + src2 s (.imm 3)).toNat % 1 = 0 ∧ holdsMemory s.params (s.x 16 + src2 s (.imm 3)) 1 = true) := by
  decide

/-- For the PC-relative loads and, with `mem.wf`, the PC-relative stores. -/
theorem witness_RelativeLoadResults :
    let s := platform (dataAt .little 0xFC0 0x20)
    s.mem.wf = true ∧ (s.pswNext = none ∨ true = false) ∧
      ((relAddr s 0x40).toNat % 4 = 0 ∧ holdsMemory s.params (relAddr s 0x40) 4 = true) ∧
      ((relAddr s 0x46).toNat % 2 = 0 ∧ readsEmpty s.params (relAddr s 0x46) 2 0xFF = true) ∧
      ((relAddr s 0x43).toNat % 1 = 0 ∧ holdsMemory s.params (relAddr s 0x43) 1 = true) := by decide

theorem witness_AbsoluteStoreResults :
    let s := platform (dataAt .big 0x100 0x20)
    s.mem.wf = true ∧ (s.pswNext = none ∨ true = false) ∧
      ((s.x 16 + (0xC : BitVec 13).signExtend 32).toNat = 0x100C ∧ 0x100C % 4 = 0 ∧
        plainMemory s.params (s.x 16 + (0xC : BitVec 13).signExtend 32) 4 = true) ∧
      ((s.x 16 + (0x1FFE : BitVec 13).signExtend 32).toNat = 0xFFE ∧ 0xFFE % 2 = 0 ∧
        plainMemory s.params (s.x 16 + (0x1FFE : BitVec 13).signExtend 32) 2 = true) ∧
      ((s.x 16 + (8 : BitVec 13).signExtend 32).toNat = 0x1008 ∧ regionKind s.params 0x1008 ≠ .ram) := by decide

theorem witness_RelativeStoreResults :
    let s := platform (dataAt .big 0xFC0 0x20)
    s.mem.wf = true ∧ (s.pswNext = none ∨ true = false) ∧ (relAddr s 0x4C).toNat = 0x100C ∧
      plainMemory s.params (relAddr s 0x4C) 4 = true ∧ (relAddr s 0x40).toNat = 0x1000 ∧
      regionKind s.params 0x1000 ≠ .ram := by decide

/-- The default machine with a given window check. -/
def checking (c : WindowCheck) (s : State) : State := { s with params := { defaultParams with windowCheck := c } }

/-- For the calls; the second state is one that only `WINDOW_CHECK = none` lets call. -/
theorem witness_CallResults :
    let s := (startAt 0x120 0x1420).writeX 16 0x400
    let u := checking .none ((startAt 0x120 0x1620).writeX 16 0x400)
    (s.pswNext = none ∧ s.psw.cwp - 1 ≠ s.psw.swp ∧ (s.x 16).toNat % 4 = 0 ∧ (relAddr s 0x20).toNat % 4 = 0) ∧
      (u.psw.cwp - 1 = u.psw.swp ∧ u.params.windowCheck = .none) := by decide

theorem witness_WindowChecks_call :
    let s := checking .trap ((startAt 0x120 0x1620).writeX 16 0x400)
    (s.pswNext = none ∧ TrapsTaken s) ∧ s.psw.s = true ∧ s.psw.cwp - 1 = s.psw.swp ∧ (s.x 16).toNat % 4 = 0 ∧
      (relAddr s 0x20).toNat % 4 = 0 ∧ s.params.windowCheck = .trap ∧ (startAt 0x120 0x1620).params.windowCheck = .refuse :=
  ⟨⟨rfl, rfl, by decide⟩, by decide⟩

theorem witness_WindowChecks_return :
    let s := checking .trap ((startAt 0x200 0x1C20).writeX 31 0x100)
    (s.pswNext = none ∧ TrapsTaken s) ∧ s.psw.s = true ∧ s.psw.cwp + 1 = s.psw.swp ∧ condHolds .alw s.psw = some true ∧
      (s.x 31 + src2 s (.imm 8)).toNat % 4 = 0 := ⟨⟨rfl, rfl, by decide⟩, by decide⟩

theorem witness_JumpTaken :
    let s := startAt 0x200 0x20
    condHolds .ne s.psw = some true ∧ (s.x 0 + src2 s (.imm 0x108)).toNat % 4 = 0 ∧ (relAddr s 0x10).toNat % 4 = 0 := by
  decide

theorem witness_UntakenTransferHasNoEffect :
    let s := startAt 0x200 0x28
    condHolds .ne s.psw = some false ∧ s.pswNext = none ∧ s.psw.s = true := by decide

theorem witness_ReturnTaken :
    let s := (startAt 0x200 0x1CA0).writeX 31 0x100
    s.pswNext = none ∧ condHolds .alw s.psw = some true ∧ s.psw.cwp + 1 ≠ s.psw.swp ∧
      (s.x 31 + src2 s (.imm 8)).toNat % 4 = 0 := by decide

theorem witness_ForbiddenFormsRefused :
    (startAt 0x200 0x20).pswNext = none ∧ (.imm 0 : Src2) ≠ .reg 0 ∧ (.reg 1 : Src2) ≠ .reg 0 ∧
      (startAt 0x200 0x20).psw.s = true := by decide

theorem witness_CalliResult :
    let s := startAt 0x110 0xC20
    s.pswNext = none ∧ s.psw.s = true ∧ s.psw.cwp - 1 ≠ s.psw.swp := by decide

theorem witness_GetlpcResult :
    (startAt 0x100 0x2F).psw.s = true ∧ ((startAt 0x100 0x2F).pswNext = none ∨ true = false) := by decide

theorem witness_PutpswResult : (startAt 0x100 0x20).pswNext = none ∧ (startAt 0x100 0x20).psw.s = true := by decide

theorem witness_RetiTaken :
    let s := (startAt 0x100 0x820).writeX 24 0x114
    s.pswNext = none ∧ s.psw.s = true ∧ condHolds .alw s.psw = some true ∧ s.psw.cwp + 1 ≠ s.psw.swp ∧
      (s.x 24 + src2 s (.imm 0)).toNat % 4 = 0 := by decide

theorem witness_GetpswResult :
    ((startAt 0x100 0).pswNext = none ∨ true = false) ∧ (startAt 0x100 0).prevScc = false := by decide

/-- A state right after an instruction with SCC = 1. -/
def afterScc : State := { startAt 0x104 0x28 with prevScc := true }

theorem witness_GetpswAfterScc : (afterScc.pswNext = none ∨ true = false) ∧ afterScc.prevScc = true := by decide

/-- One instruction and state for each row of the trap table. -/
theorem witness_TrapConditionsTrap :
    trapCondition (.ldxw false 17 16 (.imm 2)) (dataAt .big 0x100 0x20) = some .misalignedData ∧
      trapCondition (.jmpr false .alw 0x11) (startAt 0x200 0x20) = some .misalignedTarget ∧
      trapCondition (.getlpc false 24) (startAt 0x100 0) = some .privileged ∧
      trapCondition (.callr false 31 0x20) (checking .trap (startAt 0x100 0x1620)) = some .windowOverflow ∧
      trapCondition (.ret false .alw 31 (.imm 8)) (checking .trap (startAt 0x100 0x1C20)) = some .windowUnderflow := by
  decide

theorem witness_TrapsTaken : TrapsTaken (dataAt .big 0x100 0x20) ∧ TrapsTaken (startAt 0x100 0) :=
  ⟨⟨rfl, by decide⟩, ⟨rfl, by decide⟩⟩

theorem witness_NoOtherTraps :
    trapCondition (.jmpr false .alw 0x10) (startAt 0x200 0x20) = none ∧
      nextIs (exec (.jmpr false .alw 0x10) (startAt 0x200 0x20)) (fun _ => true) = true ∧
      trapCondition (.calli false 25) (startAt 0x110 0xC20) = none ∧
      nextIs (exec (.calli false 25) (startAt 0x110 0xC20)) (fun _ => true) = true := by decide

theorem witness_MaskedTrapRefused :
    let s : State := { startAt 0x100 0 with params := { defaultParams with syncTrapsMaskedByI := true } }
    s.pswNext = none ∧ s.params.syncTrapsMaskedByI = true ∧ s.psw.i = false ∧
      trapCondition (.getlpc false 24) s = some .privileged := by decide

theorem witness_TrapAfterPutpswRefused :
    (pendingAt 0x100 0x20).pswNext.isSome = true ∧ barredAfterPutpsw (.ldxw false 17 0 (.imm 2)) = false ∧
      trapCondition (.ldxw false 17 0 (.imm 2)) (pendingAt 0x100 0x20) = some .misalignedData := by decide

/-- For the word and the half word, absolute and PC-relative. -/
theorem witness_MisalignedDataTraps :
    let s := dataAt .big 0x100 0x20
    (s.x 16 + src2 s (.imm 2)).toNat % 4 ≠ 0 ∧ (s.x 16 + src2 s (.imm 1)).toNat % 2 ≠ 0 ∧
      (relAddr s 2).toNat % 4 ≠ 0 ∧ (relAddr s 1).toNat % 2 ≠ 0 ∧
      (s.x 16 + (0x1FFE : BitVec 13).signExtend 32).toNat % 4 ≠ 0 ∧
      (s.x 16 + (0x1FFF : BitVec 13).signExtend 32).toNat % 2 ≠ 0 := by decide

theorem witness_MisalignedTargetTraps :
    let s := (startAt 0x100 0x820).writeX 24 0x402
    TrapsTaken s ∧ condHolds .alw s.psw = some true ∧ (isPrivileged (.reti false .alw 24 (.imm 0)) = true → s.psw.s = true) ∧
      (s.x 24).toNat % 4 ≠ 0 ∧
      (relAddr s 0x22).toNat % 4 ≠ 0 ∧ (s.x 24 + src2 s (.imm 0)).toNat % 4 ≠ 0 := ⟨⟨rfl, by decide⟩, by decide⟩

/-- A fetch from memory, one from an empty address and one from a device. -/
theorem witness_NoAccessStopsTheMachine :
    (interruptAccepted oneAdd = false ∧ oneAdd.pc.toNat % 4 = 0) ∧
      (let s := platform (startAt 0x1004 0x20)
       interruptAccepted s = false ∧ s.pc.toNat % 4 = 0 ∧ readsEmpty s.params s.pc 4 0xFF = true) ∧
      (let s := platform (startAt 0x1008 0x20)
       interruptAccepted s = false ∧ s.pc.toNat % 4 = 0 ∧ regionKind s.params 0x1008 = .device) := by decide

theorem witness_PrivilegedTrapsInUserMode :
    let s := startAt 0x100 0
    TrapsTaken s ∧ s.psw.s = false ∧ isPrivileged (.calli false 25) = true ∧
      isPrivileged (.putpsw false 16 (.imm 0)) = true ∧ (Instr.putpsw false 16 (.imm 0)).scc = false :=
  ⟨⟨rfl, by decide⟩, by decide⟩

theorem witness_ModeMattersOnlyToPrivileged :
    let i : Instr := .add true 17 16 (.imm 1)
    let s := startAt 0x100 0x20
    isPrivileged i = false ∧ i.mnemonic ≠ .getpsw ∧ trapCondition i s = none ∧ s.pswNext = none ∧ s.psw.s = true ∧
      nextIs (exec i s) (fun _ => true) = true := by decide

theorem witness_TrapThenResume :
    let s := startAt 0x40C 0x1D80
    TrapEntered s (trapEntry s) ∧ s.pswNext = none ∧ s.pc.toNat % 4 = 0 ∧ s.nxtpc.toNat % 4 = 0 ∧
      s.psw.cwp ≠ s.psw.swp ∧ phys 7 17 ≠ phys (s.psw.cwp - 1) 24 ∧ phys 7 17 ≠ phys (s.psw.cwp - 1) 25 :=
  ⟨trapEntered_trapEntry _, by decide⟩

theorem witness_PendingStatusTakesEffect :
    (pendingAt 0x100 0x20).pswNext = some (pswOfBits 0x1C60) ∧
      nextIs (exec (.add false 17 0 (.imm 1)) (pendingAt 0x100 0x20)) (fun _ => true) = true := by decide

theorem witness_FollowerRunsUnderOldStatus :
    (pendingAt 0x100 0x20).pswNext = some (pswOfBits 0x1C60) ∧
      nextIs (exec (.getpsw false 17 (.reg 0)) (pendingAt 0x100 0x20)) (fun _ => true) = true := by decide

theorem witness_BarredAfterPutpswRefused :
    (pendingAt 0x100 0x20).pswNext.isSome = true ∧ barredAfterPutpsw (.callr false 31 0x20) = true ∧
      barredAfterPutpsw (.add true 17 0 (.imm 1)) = true := by decide

theorem witness_SccClearKeepsCodes :
    (Instr.strw false 17 0x40).scc = false ∧ (startAt 0x100 0x2F).pswNext = none ∧
      nextIs (exec (.strw false 17 0x40) (startAt 0x100 0x2F)) (fun _ => true) = true := by decide

theorem witness_OnlyPutpswChangesSwp :
    nextIs (step ((pendingAt 0x100 0x120).withFetchWord 32 0x30802005)) (fun t => t.psw.swp == 0) = true ∧
      nextIs (step ((startAt 0x100 0x120).withFetchWord 32 0x30802005)) (fun t => t.psw.swp == 2) = true := by decide

/-- User mode: a step that completes, and one that traps. -/
theorem witness_UserModeLeavesOnlyByTrap :
    let s := (startAt 0x100 0).withFetchWord 32 0x30802005
    let u := (startAt 0x100 0).withFetchWord 32 0x02C80000
    (s.psw.s = false ∧ s.pswNext = none ∧ nextIs (step s) (fun t => !t.psw.s) = true) ∧
      (u.psw.s = false ∧ u.pswNext = none ∧ nextIs (step u) (fun t => t.psw.s) = true) := by decide

theorem witness_StepRunsDecodedInstruction :
    interruptAccepted oneAdd = false ∧ oneAdd.pc.toNat % 4 = 0 ∧ holdsMemory oneAdd.params oneAdd.pc 4 = true ∧
      BitVec.ofNat 32 (memNat oneAdd.params.endian oneAdd.mem oneAdd.pc.toNat 4) = 0x30802005#32 ∧
      decodeTableWord 32 0x30802005 = some (.add false 16 0 (.imm 5)) := by decide

theorem witness_StepRefusesUnassigned :
    interruptAccepted State.reset = false ∧ State.reset.pc.toNat % 4 = 0 ∧
      holdsMemory State.reset.params State.reset.pc 4 = true ∧
      BitVec.ofNat 32 (memNat State.reset.params.endian State.reset.mem State.reset.pc.toNat 4) = 0#32 := by decide

/-- The two words that end a program, at the reset address. -/
def endOfRun : State :=
  { State.reset with
    mem := memWrite .big (memWrite .big [] .word 0x80000000 0x1A780000) .word 0x80000004 0x30000000 }

theorem witness_EndOfRunRepeats :
    endOfRun.sound = true ∧ endOfRun.ended = true ∧ endOfRun.psw.i = false ∧
      holdsMemory endOfRun.params endOfRun.pc 4 = true ∧ holdsMemory endOfRun.params (endOfRun.pc + 4) 4 = true ∧
      memNat endOfRun.params.endian endOfRun.mem (endOfRun.pc + 4).toNat 4 =
        (encodeWith endOfRun.params.opcodeMap (.add false 0 0 (.reg 0))).toNat := by decide

theorem witness_InterruptAccepted :
    let s : State := { startAt 0x114 0x1DE0 with irq := [true] }
    irqNow s = true ∧ s.psw.i = true ∧ s.pswNext = none := by decide

/-- With `I = 0`, and with a `putpsw` pending and `I = 1`; a given bit beside none. -/
theorem witness_MaskedInterruptInvisible :
    (startAt 0x100 0x20).psw.i = false ∧ (pendingAt 0x100 0x60).psw.i = true ∧
      (pendingAt 0x100 0x60).pswNext.isSome = true ∧ [true].tail = ([] : List Bool).tail := by decide

end Sys2Proof.Machine
end

section
/-! PROOFS. The fields a word keeps when bits outside them change (R93, R99, R103), and the second operand (R94, R96). -/

namespace Sys2Proof

/-! ### Words that differ in the bits of a mask -/

theorem extract_eq_zero_of_lt {a : Word} {lo n : Nat} (h : a.toNat < 2 ^ lo) : a.extractLsb' lo n = 0 := by
  apply BitVec.eq_of_toNat_eq
  simp [Nat.shiftRight_eq_div_pow, Nat.div_eq_of_lt h]

/-- `v` and `w` have the same bit wherever `mask` has a zero. -/
def EqBut (mask v w : Word) : Prop := ∀ k, mask.getLsbD k = false → v.getLsbD k = w.getLsbD k

theorem eqBut_xor_and (mask w x : Word) : EqBut mask (w ^^^ (x &&& mask)) w := by
  intro k hk
  simp [hk]

section
variable {mask v w : Word}

theorem EqBut.extract (h : EqBut mask v w) {lo n : Nat} (hm : mask.extractLsb' lo n = 0) :
    v.extractLsb' lo n = w.extractLsb' lo n := by
  apply BitVec.eq_of_getLsbD_eq
  intro k hk
  have clear : (mask.extractLsb' lo n).getLsbD k = false := by rw [hm]; simp
  simp only [BitVec.getLsbD_extractLsb', hk, decide_true, Bool.true_and] at clear ⊢
  exact h _ clear

theorem EqBut.opField (h : EqBut mask v w) (hm : mask.extractLsb' 25 7 = 0) : opField v = opField w :=
  h.extract hm

theorem EqBut.sccField (h : EqBut mask v w) (hm : mask.getLsbD 24 = false) : sccField v = sccField w :=
  h 24 hm

theorem EqBut.destField (h : EqBut mask v w) (hm : mask.extractLsb' 19 5 = 0) : destField v = destField w :=
  h.extract hm

theorem EqBut.condField (h : EqBut mask v w) (hm : mask.extractLsb' 19 4 = 0) : condField v = condField w :=
  congrArg condOfCode (h.extract hm)

theorem EqBut.rs1Field (h : EqBut mask v w) (hm : mask.extractLsb' 14 5 = 0) : rs1Field v = rs1Field w :=
  h.extract hm

theorem EqBut.imm19Field (h : EqBut mask v w) (hm : mask.extractLsb' 0 19 = 0) : imm19Field v = imm19Field w :=
  h.extract hm

end

/-! ### The field of the second operand (R93, R94) -/

theorem src2Field_imm (w : Word) (h : w.getLsbD 13 = true) : src2Field w = .imm (w.extractLsb' 0 13) :=
  if_pos h

theorem src2Field_reg (w : Word) (h : w.getLsbD 13 = false) : src2Field w = .reg (w.extractLsb' 0 5) :=
  if_neg (Bool.eq_false_iff.mp h)

/-- The ignored bits of a second operand are below bit 13, which tells its form. -/
theorem src2IgnoredBits_lt (s2 : Src2) : (src2IgnoredBits s2).toNat < 2 ^ 13 := by
  cases s2 with
  | reg => simp [src2IgnoredBits]
  | imm => simp [src2IgnoredBits]

@[simp] theorem src2IgnoredBits_extract (s2 : Src2) {lo n : Nat} (h : 13 ≤ lo) :
    (src2IgnoredBits s2).extractLsb' lo n = 0 :=
  extract_eq_zero_of_lt (Nat.lt_of_lt_of_le (src2IgnoredBits_lt s2) (Nat.pow_le_pow_right (by decide) h))

/-- The second operand is kept by a mask that is, below bit 14, the mask of that operand's form: the register form keeps
its bits 4:0, the immediate form all of 12:0, and both keep bit 13. -/
theorem EqBut.src2Field {mask v w : Word} (h : EqBut mask v w)
    (hm : mask.extractLsb' 0 14 = (src2IgnoredBits (src2Field w)).extractLsb' 0 14) :
    src2Field v = src2Field w := by
  have form : v.getLsbD 13 = w.getLsbD 13 := by
    have clear : mask.getLsbD 13 = (src2IgnoredBits (Sys2Proof.src2Field w)).getLsbD 13 := by
      simpa using congrArg (·.getLsbD 13) hm
    exact h 13 (clear.trans (Nat.testBit_lt_two_pow (src2IgnoredBits_lt _)))
  have low (n : Nat) (hn : n ≤ 14) :
      mask.extractLsb' 0 n = (src2IgnoredBits (Sys2Proof.src2Field w)).extractLsb' 0 n := by
    simpa [BitVec.extractLsb'_extractLsb'_of_le, hn] using congrArg (·.extractLsb' 0 n) hm
  cases hw : w.getLsbD 13 with
  | true =>
    rw [src2Field_imm w hw] at low ⊢
    rw [src2Field_imm v (form.trans hw), h.extract (low 13 (by decide))]
  | false =>
    rw [src2Field_reg w hw] at low ⊢
    have register_kept : (src2IgnoredBits (.reg (w.extractLsb' 0 5))).extractLsb' 0 5 = 0 := by
      simp [src2IgnoredBits]
    rw [src2Field_reg v (form.trans hw), h.extract ((low 5 (by decide)).trans register_kept)]

/-! ### Instructions (R98, R103) -/

/-- Opcode and SCC, the bits from 24 up, are never ignored. -/
theorem ignoredBits_lt (i : Instr) : i.ignoredBits.toNat < 2 ^ 24 := by
  have or_lt (a : Word) (s2 : Src2) (ha : a.toNat < 2 ^ 24) : (a ||| src2IgnoredBits s2).toNat < 2 ^ 24 := by
    have hs := src2IgnoredBits_lt s2
    rw [BitVec.toNat_or]
    exact Nat.or_lt_two_pow ha (by omega)
  cases i with
  | calli | getlpc | jmpr | callr | ldhi | ldrw | lrhu | lrhs | lrbu | lrbs | strw | strh | strb =>
    simp [Instr.ignoredBits]
  | getpsw | putpsw | jmpx | ret | reti => exact or_lt _ _ (by decide)
  | _ => exact Nat.lt_trans (src2IgnoredBits_lt _) (by decide)

theorem opField_of_eqBut_ignoredBits {i : Instr} {v w : Word} (h : EqBut i.ignoredBits v w) :
    opField v = opField w :=
  h.opField (extract_eq_zero_of_lt (Nat.lt_trans (ignoredBits_lt i) (by decide)))

theorem sccField_of_eqBut_ignoredBits {i : Instr} {v w : Word} (h : EqBut i.ignoredBits v w) :
    sccField v = sccField w :=
  h.sccField (Nat.testBit_lt_two_pow (ignoredBits_lt i))

theorem instrOf_of_eqBut_ignoredBits (k : Mnemonic) {v w : Word} (h : EqBut (instrOf k w).ignoredBits v w) :
    instrOf k v = instrOf k w := by
  have hscc := sccField_of_eqBut_ignoredBits h
  cases k with simp only [instrOf, Instr.ignoredBits] at h ⊢
  | calli | getlpc => rw [hscc, h.destField (by decide)]
  | jmpr => rw [hscc, h.condField (by decide), h.imm19Field (by decide)]
  | callr | ldhi | ldrw | lrhu | lrhs | lrbu | lrbs | strw | strh | strb =>
    rw [hscc, h.destField (by decide), h.imm19Field (by decide)]
  | getpsw => simp [hscc, h.destField, h.src2Field, BitVec.extractLsb'_or]
  | putpsw => simp [hscc, h.rs1Field, h.src2Field, BitVec.extractLsb'_or]
  | jmpx | ret | reti => simp [hscc, h.condField, h.rs1Field, h.src2Field, BitVec.extractLsb'_or]
  | _ => simp [hscc, h.destField, h.rs1Field, h.src2Field]

theorem decodeWith_ok_iff (m : OpcodeMap) (w : Word) (i : Instr) :
    decodeWith m w = .ok i ↔ ∃ k, mnemonicOf m (opField w) = some k ∧ instrOf k w = i := by
  unfold decodeWith
  cases mnemonicOf m (opField w) with
  | none => simp
  | some k => simp

/-- What a word decodes to depends on none of the bits that the decoded instruction ignores (R103). -/
theorem decodeWith_of_eqBut_ignoredBits {m : OpcodeMap} {v w : Word} {i : Instr} (hd : decodeWith m w = .ok i)
    (h : EqBut i.ignoredBits v w) : decodeWith m v = .ok i := by
  obtain ⟨k, hk, rfl⟩ := (decodeWith_ok_iff m w i).mp hd
  have opcode : opField v = opField w := opField_of_eqBut_ignoredBits h
  exact (decodeWith_ok_iff m v _).mpr ⟨k, opcode ▸ hk, instrOf_of_eqBut_ignoredBits k h⟩

/-- Settles O3: the changed word equals the given one outside the ignored bits, and these reach no field of the
instruction. -/
theorem ignoredBitsDoNotDecode : Obligations.IgnoredBitsDoNotDecode := by
  intro m w x i hd
  exact decodeWith_of_eqBut_ignoredBits hd (eqBut_xor_and i.ignoredBits w x)

end Sys2Proof

/-! ### The value of the second operand (R94, R96) -/

namespace Sys2Proof.Machine

/-- The immediate form has the signed value of its 13 bits. -/
theorem src2_imm_toInt (s : State) (b : BitVec 13) : (src2 s (.imm b)).toInt = b.toInt :=
  BitVec.toInt_signExtend_of_le (by decide)

theorem src2_reg (s : State) (r : RegName) : src2 s (.reg r) = s.xw s.psw.cwp r := rfl

/-- Settles O14: by the form that bit 13 tells, from the value of each form. -/
theorem secondOperand : Obligations.SecondOperand := by
  intro s w
  constructor
  · intro himm
    rw [src2Field_imm w himm, src2_imm_toInt]
    have low := BitVec.le_toInt (w.extractLsb' 0 13)
    have high := BitVec.toInt_lt (x := w.extractLsb' 0 13)
    exact ⟨rfl, low, by omega⟩
  · intro hreg
    rw [src2Field_reg w hreg, src2_reg]

end Sys2Proof.Machine
end

section
/-! PROOFS. Addition and subtraction: the condition codes as arithmetic, and what the instructions leave (R180 to R189). -/

namespace Sys2Proof.Machine

/-! ### The condition codes of a sum and of a difference (R180, R181, R189) -/

theorem carryNat_eq_toNat (c : Bool) : carryNat c = c.toNat := by
  cases c with
  | false => rfl
  | true => rfl

@[simp] theorem addOf_res_toNat (p q : Word) (c : Nat) :
    (addOf p q c).res.toNat = (p.toNat + q.toNat + c) % 2 ^ 32 :=
  BitVec.toNat_ofNat ..

/-- `Add` overflows exactly if its operands have one sign and the result has the other. -/
theorem arithFlags_addOf (p q : Word) (c : Nat) (hc : c ≤ 1) :
    arithFlags (addOf p q c) =
      ⟨decide ((addOf p q c).res = 0), (addOf p q c).res.msb,
        decide (p.msb = q.msb ∧ (addOf p q c).res.msb ≠ p.msb), decide (2 ^ 32 ≤ p.toNat + q.toNat + c)⟩ := by
  rw [← addOf_overflow p q c hc]
  rfl

/-- A difference with nothing to adjust is zero exactly for equal operands, and has no borrow exactly if the subtrahend
is not the greater operand. -/
theorem arithFlags_subOf (p q : Word) :
    arithFlags (subOf p q 0) =
      ⟨decide (p = q), (p - q).msb, decide (p.msb ≠ q.msb ∧ (p - q).msb ≠ p.msb), decide (q.toNat ≤ p.toNat)⟩ := by
  have zero : ((p - q) == 0) = decide (p = q) := decide_eq_decide.mpr sub_eq_zero
  have no_borrow : (subOf p q 0).c = decide (q.toNat ≤ p.toNat) := decide_eq_decide.mpr (by omega)
  have overflow : (subOf p q 0).v = decide (p.msb ≠ q.msb ∧ (p - q).msb ≠ p.msb) := subOf_overflow p q
  rw [arithFlags, subOf_res, zero, no_borrow, overflow, signBit]

/-! ### What the instructions leave -/

section
variable {i : Instr} {s : State} {rd : RegName}

/-- An instruction whose effect is `Add` of two operands and a carry bit. -/
theorem exec_addition {p q : Word} {c : Nat} (hc : c ≤ 1) (ready : s.pswNext = none ∨ i.scc = false)
    (hn : neverAfterPutpsw i = false) (he : effectOf i s = arithResult i.scc rd (addOf p q c) s) :
    ∃ t res, exec i s = .next t ∧ res.toNat = (p.toNat + q.toNat + c) % 2 ^ 32 ∧
      RegisterResult s t i.scc rd res
        ⟨decide (res = 0), res.msb, decide (p.msb = q.msb ∧ res.msb ≠ p.msb),
          decide (2 ^ 32 ≤ p.toNat + q.toNat + c)⟩ := by
  obtain ⟨t, completes, result⟩ := exec_arithResult i s rd _ ready hn he
  rw [arithFlags_addOf p q c hc] at result
  exact ⟨t, (addOf p q c).res, completes, addOf_res_toNat p q c, result⟩

/-- An instruction whose effect is `Sub` of two operands with nothing to adjust. -/
theorem exec_subtraction {p q : Word} (ready : s.pswNext = none ∨ i.scc = false)
    (hn : neverAfterPutpsw i = false) (he : effectOf i s = arithResult i.scc rd (subOf p q 0) s) :
    ∃ t, exec i s = .next t ∧
      RegisterResult s t i.scc rd (p - q)
        ⟨decide (p = q), (p - q).msb, decide (p.msb ≠ q.msb ∧ (p - q).msb ≠ p.msb), decide (q.toNat ≤ p.toNat)⟩ := by
  obtain ⟨t, completes, result⟩ := exec_arithResult i s rd _ ready hn he
  rw [arithFlags_subOf, subOf_res] at result
  exact ⟨t, completes, result⟩

end

/-- Settles O21: both instructions are `Add`, `addc` with the carry flag as its carry bit. -/
theorem additionResults : Obligations.AdditionResults := by
  intro scc rd rs1 s2 s ready p hp
  simp only [List.mem_cons, List.not_mem_nil, or_false] at hp
  obtain rfl | rfl := hp
  · exact exec_addition (i := .add scc rd rs1 s2) (Nat.zero_le 1) ready rfl rfl
  · have effect : effectOf (.addc scc rd rs1 s2) s =
        arithResult scc rd (addOf (s.x rs1) (src2 s s2) s.psw.c.toNat) s := by
      rw [← carryNat_eq_toNat]
      rfl
    exact exec_addition (i := .addc scc rd rs1 s2) (Bool.toNat_le _) ready rfl effect

/-- Settles O22: both instructions are `Sub`, `subi` with its operands exchanged. -/
theorem subtractionResults : Obligations.SubtractionResults := by
  intro scc rd rs1 s2 s ready p hp
  simp only [List.mem_cons, List.not_mem_nil, or_false] at hp
  obtain rfl | rfl := hp
  · exact exec_subtraction (i := .sub scc rd rs1 s2) ready rfl rfl
  · exact exec_subtraction (i := .subi scc rd rs1 s2) ready rfl rfl

end Sys2Proof.Machine
end

section
/-! PROOFS. The return from a trap: the checks a taken `reti` passes, and what it leaves (R124, R252). -/

namespace Sys2Proof.Machine

/-! ### Checks that let an instruction go on -/

theorem privileged_pass (s : State) (e : Effect) (h : s.psw.s = true) : privileged s e = e :=
  if_pos h

theorem whenCond_taken (c : Cond) (s : State) (e : Effect) (h : condHolds c s.psw = some true) :
    whenCond c s e = e := by
  rw [whenCond, h]

/-! ### What a completion leaves that writes only the status word -/

/-- The state `t` may differ from `s` in the status word in effect (R33, R46). -/
theorem nothingWritten_retire (scc : Bool) (s t : State) (f : Flow) (hregs : t.regs = s.regs) (hmem : t.mem = s.mem)
    (hnext : t.pswNext = s.pswNext) (hirq : t.irq = s.irq) (hsteps : t.steps = s.steps)
    (hparams : t.params = s.params) (hf : flowPc s f = s.nxtpc) :
    NothingWritten s (retire scc s t f) scc (flowNxtpc s f) t.psw := by
  have memory : SameMemory s (retire scc s t f) := fun a => by rw [retire_mem, hmem]
  exact ⟨hregs, pswAfter_retire scc s t f hnext, memory, advances_retire scc s t hirq hsteps hparams f hf⟩

/-! ### `reti` (R124, R252) -/

/-- A `reti` that passes its four checks, in the order R124 makes them, returns from the trap with a delayed transfer. -/
theorem effectOf_reti_taken (scc : Bool) (c : Cond) (rs1 : RegName) (s2 : Src2) (s : State) (hmode : s.psw.s = true)
    (hcond : condHolds c s.psw = some true) (haligned : (absAddr s rs1 s2).toNat % 4 = 0)
    (hwindow : returnWindow s.psw.cwp ≠ s.psw.swp ∨ s.params.windowCheck = .none) :
    effectOf (.reti scc c rs1 s2) s = .done (returnFromTrap s) (.jump (absAddr s rs1 s2)) := by
  rw [effectOf, privileged_pass _ _ hmode, whenCond_taken _ _ _ hcond, alignedTarget_pass _ _ haligned,
    windowCheckReturn_pass _ _ _ hwindow]

/-- Settles O38: the checks passed, the completion's state differs from `s` in the status word alone. -/
theorem retiTaken : Obligations.RetiTaken := by
  intro scc c rs1 s2 s hnext hmode hcond hwindow haligned
  have effect := effectOf_reti_taken scc c rs1 s2 s hmode hcond haligned hwindow
  have completes := exec_done _ _ _ _ (.inl hnext) effect
  exact ⟨_, completes, nothingWritten_retire scc s (returnFromTrap s) (.jump (s.x rs1 + src2 s s2))
    rfl rfl rfl rfl rfl rfl rfl⟩

end Sys2Proof.Machine
end

section
/-! PROOFS. The encoder and the decoder undo each other, but for the bits the hardware ignores (R100 to R108). -/

namespace Sys2Proof

/-! ### Decoding an encoded instruction (R102, R108) -/

/-- The fields of an instruction's word are the operands it was built from. -/
theorem instrOf_encodeWith (m : OpcodeMap) (i : Instr) : instrOf i.mnemonic (encodeWith m i) = i := by
  have scc := sccField_encodeWith m i
  have dest := destField_encodeWith m i
  have low := imm19Field_encodeWith m i
  cases i with simp only [instrOf, Instr.mnemonic, scc, dest, low, condField_eq, rs1Field_eq, src2Field_eq,
    Instr.scc, Instr.destBits, Instr.lowBits]
  | jmpr => rw [condBits_cond]
  | jmpx | ret | reti => rw [condBits_cond, shortBits_rs1, shortBits_src2]
  | getpsw => rw [shortBits_src2]
  | _ => rw [shortBits_rs1, shortBits_src2]

/-- Settles O1: an injective map finds the mnemonic of the word again, and every field is the operand written there. -/
theorem decodeInvertsEncode : Obligations.DecodeInvertsEncode := by
  intro m i hm
  refine (decodeWith_ok_iff m _ i).mpr ⟨i.mnemonic, ?_, instrOf_encodeWith m i⟩
  rw [opField_encodeWith, mnemonicOf_op m hm]

/-! ### Encoding a decoded word (R103, R108) -/

/-- A word is an instruction's word outside the ignored bits if it is so field by field. -/
theorem encodeWith_eq_of_fields {m : OpcodeMap} {i : Instr} {w : Word} (hop : m.op i.mnemonic = opField w)
    (hscc : i.scc = sccField w) (hdest : i.destBits = destField w &&& ~~~destField i.ignoredBits)
    (hlow : i.lowBits = imm19Field w &&& ~~~imm19Field i.ignoredBits) :
    encodeWith m i = w &&& ~~~i.ignoredBits := by
  apply BitVec.eq_of_getLsbD_eq
  intro k hk
  have kept (h : 24 ≤ k) : i.ignoredBits[k] = false :=
    Nat.testBit_lt_two_pow (Nat.lt_of_lt_of_le (ignoredBits_lt i) (Nat.pow_le_pow_right (by decide) h))
  rw [encodeWith_bit]
  split
  · rename_i low
    simp [hlow, imm19Field, hk, low]
  split
  · rename_i notLow dest
    simp [hdest, destField, hk, show k - 19 < 5 by omega, show 19 + (k - 19) = k by omega]
  split
  · rename_i notDest bit24
    obtain rfl : k = 24 := by omega
    simp [hscc, sccField, kept]
  · rename_i opcode
    simp [hop, opField, hk, kept (by omega), show k - 25 < 7 by omega, show 25 + (k - 25) = k by omega]

theorem eq_and_not_of_mask_zero {n : Nat} {x mask : BitVec n} (h : mask = 0) : x = x &&& ~~~mask := by
  simp [h]

/-- DEST read as a condition loses bit 23 (R99). -/
theorem condBits_condField (w : Word) : condBits (condField w) = destField w &&& ~~~destField 0x800000 := by
  apply BitVec.eq_of_getLsbD_eq
  intro k hk
  simp only [condBits, condField, code_condOfCode, destField, BitVec.getLsbD_append, BitVec.getLsbD_and]
  interval_cases k <;> simp

/-- The register form of the second operand loses bits 12:5 (R93, R94). -/
theorem src2Bits_src2Field (w : Word) :
    src2Bits (src2Field w) = w.extractLsb' 0 14 &&& ~~~(src2IgnoredBits (src2Field w)).extractLsb' 0 14 := by
  apply BitVec.eq_of_getLsbD_eq
  intro k hk
  cases form : w.getLsbD 13 with
  | true =>
    have bit13 : w[13] = true := form
    simp only [src2Field_imm w form, src2Bits, src2IgnoredBits, BitVec.getLsbD_append, BitVec.getLsbD_and]
    interval_cases k <;> simp [bit13]
  | false =>
    have bit13 : w[13] = false := form
    simp only [src2Field_reg w form, src2Bits, src2IgnoredBits, BitVec.getLsbD_append, BitVec.getLsbD_and]
    interval_cases k <;> simp [bit13]

theorem imm19Field_eq_append (w : Word) : imm19Field w = rs1Field w ++ w.extractLsb' 0 14 := by
  apply BitVec.eq_of_getLsbD_eq
  intro k hk
  simp only [imm19Field, rs1Field, BitVec.getLsbD_append, BitVec.getLsbD_extractLsb']
  split
  · simp [*]
  · simp [show k - 14 < 5 by omega, show 14 + (k - 14) = k by omega, hk]

/-- The low bits of a short-format word, whose first source is `r` and whose ignored bits are `mask`. -/
theorem shortBits_src2Field {r : RegName} {w mask : Word} (hr : r = rs1Field w &&& ~~~rs1Field mask)
    (hs : mask.extractLsb' 0 14 = (src2IgnoredBits (src2Field w)).extractLsb' 0 14) :
    shortBits r (src2Field w) = imm19Field w &&& ~~~imm19Field mask := by
  rw [imm19Field_eq_append w, imm19Field_eq_append mask, BitVec.not_append, BitVec.and_append, hs, hr,
    ← src2Bits_src2Field]
  rfl

theorem destBits_instrOf (k : Mnemonic) (w : Word) :
    (instrOf k w).destBits = destField w &&& ~~~destField (instrOf k w).ignoredBits := by
  cases k with simp only [instrOf, Instr.destBits, Instr.ignoredBits]
  | jmpr => exact condBits_condField w
  | jmpx | ret | reti => rw [condBits_condField]; simp [destField, BitVec.extractLsb'_or]
  | putpsw => simp [destField, BitVec.extractLsb'_or]
  | _ => exact eq_and_not_of_mask_zero (by simp [destField, BitVec.extractLsb'_or])

theorem lowBits_instrOf (k : Mnemonic) (w : Word) :
    (instrOf k w).lowBits = imm19Field w &&& ~~~imm19Field (instrOf k w).ignoredBits := by
  cases k with simp only [instrOf, Instr.lowBits, Instr.ignoredBits]
  | calli | getlpc => simp [imm19Field]
  | jmpr | callr | ldhi | ldrw | lrhu | lrhs | lrbu | lrbs | strw | strh | strb =>
    exact eq_and_not_of_mask_zero (by simp [imm19Field])
  | getpsw => exact shortBits_src2Field (by simp [rs1Field, BitVec.extractLsb'_or]) (by simp [BitVec.extractLsb'_or])
  | _ =>
    exact shortBits_src2Field (eq_and_not_of_mask_zero (by simp [rs1Field, BitVec.extractLsb'_or]))
      (by simp [BitVec.extractLsb'_or])

/-- Settles O2: every field of a decoded word is that of the instruction's word, outside the ignored bits. -/
theorem encodeInvertsDecodeButIgnoredBits : Obligations.EncodeInvertsDecodeButIgnoredBits := by
  intro m w i hd
  obtain ⟨k, hk, rfl⟩ := (decodeWith_ok_iff m w i).mp hd
  have opcode : m.op (instrOf k w).mnemonic = opField w := by rw [instrOf_mnemonic, op_of_mnemonicOf m _ k hk]
  exact encodeWith_eq_of_fields opcode (instrOf_scc k w) (destBits_instrOf k w) (lowBits_instrOf k w)

/-! ### What an opcode selects (R100, R102, R105) -/

theorem decodeWith_error_iff (m : OpcodeMap) (w : Word) :
    decodeWith m w = .error (.unassignedOpcode (opField w)) ↔ mnemonicOf m (opField w) = none := by
  unfold decodeWith
  cases mnemonicOf m (opField w) with
  | none => simp
  | some k => simp

/-- Settles O4: the decoder looks at the opcode alone, and the lookup fails exactly if no mnemonic has it. -/
theorem opcodeAloneSelects : Obligations.OpcodeAloneSelects := by
  intro m w
  exact ⟨fun i hd => (decodeWith_ok m w i hd).1, (decodeWith_error_iff m w).trans (mnemonicOf_eq_none m (opField w))⟩

/-- The opcode numbers that a map assigns. -/
def assignedOpcodes (m : OpcodeMap) : List Nat := allMnemonics.map fun k => (m.op k).toNat

theorem assignedOpcodes_nodup (m : OpcodeMap) (hm : m.injective = true) : (assignedOpcodes m).Nodup := by
  have all_distinct : allMnemonics.Nodup := by decide
  exact all_distinct.map fun j k h => op_injective m hm j k (BitVec.eq_of_toNat_eq h)

/-- An opcode number selects an instruction exactly if the map assigns it. -/
theorem mem_assignedOpcodes (m : OpcodeMap) (n : Nat) :
    n ∈ assignedOpcodes m ↔ n ∈ (List.range 128).filter fun n => !(mnemonicOf m (BitVec.ofNat 7 n)).isNone := by
  simp only [assignedOpcodes, List.mem_map, List.mem_filter, List.mem_range, Bool.not_eq_true',
    Option.isNone_eq_false_iff, Option.isSome_iff_ne_none, ne_eq, mnemonicOf_eq_none, not_forall, not_not]
  constructor
  · rintro ⟨k, -, rfl⟩
    exact ⟨(m.op k).isLt, k, by simp⟩
  · rintro ⟨hn, k, hk⟩
    exact ⟨k, mem_allMnemonics k, by rw [hk, BitVec.toNat_ofNat, Nat.mod_eq_of_lt hn]⟩

/-- Settles O5: the 128 opcode numbers are those that select nothing and, up to order, the 39 distinct ones that the map
assigns. -/
theorem eightyNineOpcodesUnassigned : Obligations.EightyNineOpcodesUnassigned := by
  intro m hm
  have assigned :
      (assignedOpcodes m).Perm ((List.range 128).filter fun n => !(mnemonicOf m (BitVec.ofNat 7 n)).isNone) :=
    (List.perm_ext_iff_of_nodup (assignedOpcodes_nodup m hm) (List.nodup_range.filter _)).mpr (mem_assignedOpcodes m)
  have count := assigned.length_eq
  have split128 := List.length_eq_length_filter_add (l := List.range 128) fun n =>
    (mnemonicOf m (BitVec.ofNat 7 n)).isNone
  rw [List.length_range] at split128
  have mnemonics : (assignedOpcodes m).length = 39 := by rw [assignedOpcodes, List.length_map]; rfl
  omega

/-- Settles O6: the default decoder evaluates on each of the words. -/
theorem sampleWordsDecode : Obligations.SampleWordsDecode := by
  unfold Obligations.SampleWordsDecode
  decide

end Sys2Proof
end

section
/-! PROOFS. What every step keeps: soundness, the parameters, `SWP`, the codes with SCC = 0, the mode of a user
(R7, R25, R33, R36, R41, R256). -/

namespace Sys2Proof.Machine

/-! ### What a step can do -/

theorem pswNext_of_interruptAccepted {s : State} (h : interruptAccepted s = true) : s.pswNext = none := by
  simp only [interruptAccepted, Bool.and_eq_true, Option.isNone_iff_eq_none] at h
  exact h.1.2

/-- A step that answers a next state enters a trap, with nothing pending, or completes an instruction (R282). -/
theorem step_next_cases {s t : State} (h : step s = .next t) :
    (s.pswNext = none ∧ t = trapEntry (sampleIrq s)) ∨
      ∃ i u f, effectOf i (sampleIrq s) = .done u f ∧ t = retire i.scc (sampleIrq s) u f := by
  obtain ⟨accepted, rfl⟩ | ⟨-, w, i, -, -, he⟩ := step_next s t h
  · exact .inl ⟨pswNext_of_interruptAccepted accepted, rfl⟩
  · obtain ⟨-, ⟨u, f, effect, rfl⟩ | ⟨c, -, taken, rfl⟩⟩ := exec_next i (sampleIrq s) t he
    · exact .inr ⟨i, u, f, effect, rfl⟩
    · exact .inl ⟨taken.1, rfl⟩

/-! ### Soundness and parameters -/

theorem trapVector_aligned : wordAligned trapVector = true ∧ wordAligned (trapVector + 4) = true := by decide

/-- What the completion of an instruction leaves sound. -/
def SoundEnd (s u : State) (f : Flow) : Prop :=
  wordAligned (flowPc s f) = true ∧ wordAligned (flowNxtpc s f) = true ∧ u.regs[0] = 0 ∧ u.mem.wf = true

theorem writeX_p0 (s : State) (i : RegName) (v : Word) : (s.writeX i v).regs[0] = s.regs[0] :=
  writeXw_p0 s s.psw.cwp i v

/-- Every instruction completes soundly from a sound state: targets are checked, `P[0]` is never written, and the memory
operations keep the canonical form. -/
theorem soundEnd_effectOf (i : Instr) (s : State) (hs : s.sound = true) : Ends (SoundEnd s) (effectOf i s) := by
  obtain ⟨-, nxtpc, -, p0, mem⟩ := (sound_iff s).mp hs
  have nxtpc4 := wordAligned_add_four s.nxtpc nxtpc
  apply ends_effectOf
  case seq => exact ⟨nxtpc, nxtpc4, p0, mem⟩
  case jump => exact fun a ha => ⟨nxtpc, ha, p0, mem⟩
  case reg => exact fun rd v f => ⟨nxtpc, nxtpc4, by simp [writeX_p0, p0], by simp [mem]⟩
  case status => exact fun rd v f k => ⟨nxtpc, nxtpc4, by simp [writeX_p0, p0], by simp [mem]⟩
  case pend => exact fun q _ _ => ⟨nxtpc, nxtpc4, p0, mem⟩
  case calli => exact fun rd _ _ => ⟨trapVector_aligned.1, trapVector_aligned.2, by simp [writeX_p0, p0], by simp [mem]⟩
  case call => exact fun rd a _ ha => ⟨nxtpc, ha, by simp [writeX_p0, p0], by simp [mem]⟩
  case ret => exact fun a _ ha => ⟨nxtpc, ha, p0, mem⟩
  case reti => exact fun a _ _ ha => ⟨nxtpc, ha, p0, mem⟩
  case absStore => exact fun w a v => ⟨nxtpc, nxtpc4, by simp [p0], by simp [busWrite_wf s w a v mem]⟩
  case relStore => exact fun w a v => ⟨nxtpc, nxtpc4, by simp [p0], by simp [busWrite_wf s w a v mem]⟩

/-- Settles O9: a trap entry goes to the aligned vector, a completion is sound, and a step faults at a misaligned `PC`
alone. -/
theorem stepKeepsSound : Obligations.StepKeepsSound := by
  intro s hs
  obtain ⟨pc, nxtpc, lstpc, p0, mem⟩ := (sound_iff s).mp hs
  refine ⟨fun t h => ?_, fun a h => step_fault s _ h ((wordAligned_iff s.pc).mp pc)⟩
  obtain ⟨-, rfl⟩ | ⟨i, u, f, effect, rfl⟩ := step_next_cases h
  · exact (sound_iff _).mpr ⟨trapVector_aligned.1, trapVector_aligned.2, nxtpc, by simp [writeXw_p0, p0], by simp [mem]⟩
  · obtain ⟨pc', nxtpc', p0', mem'⟩ := soundEnd_effectOf i (sampleIrq s) hs u f effect
    exact (sound_iff _).mpr ⟨pc', nxtpc', pc, p0', mem'⟩

/-- No instruction's effect changes the parameters. -/
theorem params_effectOf (i : Instr) (s : State) : Ends (fun u _ => u.params = s.params) (effectOf i s) := by
  apply ends_effectOf
  all_goals intros; simp

/-- Settles O10: neither a trap entry nor a completion changes the parameters. -/
theorem stepKeepsParameters : Obligations.StepKeepsParameters := by
  intro s t h
  obtain ⟨-, rfl⟩ | ⟨i, u, f, effect, rfl⟩ := step_next_cases h
  · simp
  · exact params_effectOf i (sampleIrq s) u f effect

/-! ### The status word -/

/-- No instruction's effect changes `SWP` of the status word in effect. -/
theorem swp_effectOf (i : Instr) (s : State) : Ends (fun u _ => u.psw.swp = s.psw.swp) (effectOf i s) := by
  apply ends_effectOf
  all_goals intros; simp [apply_ite Psw.swp]

/-- Settles O55: a trap entry comes with nothing pending and keeps `SWP`, and so does an effect; only the pending word
replaces it. -/
theorem onlyPutpswChangesSwp : Obligations.OnlyPutpswChangesSwp := by
  intro s t h
  obtain ⟨nothing_pending, rfl⟩ | ⟨i, u, f, effect, rfl⟩ := step_next_cases h
  · simp [nothing_pending]
  · have kept := swp_effectOf i (sampleIrq s) u f effect
    rw [retire_psw, sampleIrq_pswNext]
    cases s.pswNext with
    | none => exact kept
    | some q => rfl

/-- What a completion keeps in user mode. -/
def UserKept (s u : State) : Prop :=
  u.psw.s = s.psw.s ∧ u.psw.i = s.psw.i ∧ u.psw.p = s.psw.p ∧ u.psw.swp = s.psw.swp ∧ u.pswNext = s.pswNext

/-- Only the privileged `putpsw` and `reti` write what a user keeps (R256). -/
theorem userKept_effectOf (i : Instr) (s : State) (user : s.psw.s = false) :
    Ends (fun u _ => UserKept s u) (effectOf i s) := by
  apply ends_effectOf
  case pend | reti => simp [user]
  all_goals intros; simp [UserKept, apply_ite Psw.s, apply_ite Psw.i, apply_ite Psw.p, apply_ite Psw.swp]

/-- Settles O56: a trap entry is the first alternative, a completion in user mode the second. -/
theorem userModeLeavesOnlyByTrap : Obligations.UserModeLeavesOnlyByTrap := by
  intro s t user nothing_pending h
  obtain ⟨-, rfl⟩ | ⟨i, u, f, effect, rfl⟩ := step_next_cases h
  · exact .inl (trapEntered_trapEntry _)
  · obtain ⟨mode, enabled, previous, saved, pending⟩ := userKept_effectOf i (sampleIrq s) user u f effect
    simp only [sampleIrq_psw, sampleIrq_pswNext, nothing_pending, user] at mode enabled previous saved pending
    exact .inr (by simp [nothing_pending, mode, enabled, previous, saved, pending])

/-- An instruction with SCC = 0 leaves the condition codes alone (R41). -/
theorem codes_effectOf (i : Instr) (s : State) (off : i.scc = false) :
    Ends (fun u _ => pswFlags u.psw = pswFlags s.psw) (effectOf i s) := by
  apply ends_effectOf
  all_goals intros; simp [off, pswFlags]

/-- Settles O54: a trap entry keeps the codes, and so does an effect with SCC = 0. -/
theorem sccClearKeepsCodes : Obligations.SccClearKeepsCodes := by
  intro i s t off nothing_pending h
  have codes : pswFlags t.psw = pswFlags s.psw := by
    obtain ⟨-, ⟨u, f, effect, rfl⟩ | ⟨c, -, -, rfl⟩⟩ := exec_next i s t h
    · rw [retire_psw, nothing_pending]
      exact codes_effectOf i s off u f effect
    · rfl
  simpa [pswFlags] using codes

/-! ### The instruction after a `putpsw` -/

/-- Settles O51: a trap is not taken with a word pending, and a completion puts that word in effect. -/
theorem pendingStatusTakesEffect : Obligations.PendingStatusTakesEffect := by
  intro i s t q pending h
  obtain ⟨-, ⟨u, f, -, rfl⟩ | ⟨c, -, taken, -⟩⟩ := exec_next i s t h
  · simp [pending]
  · exact absurd taken.1 (by simp [pending])

/-- Settles O53: the statement's class is the model's, by definition. -/
theorem barredAfterPutpswRefused : Obligations.BarredAfterPutpswRefused := by
  intro i s pending barred
  rw [exec_eq]
  exact conclude_barred i.scc (neverAfterPutpsw i) s _ pending barred

/-! ### Traps as the trap table has them (R241, R248) -/

theorem effectOf_of_trapCondition {i : Instr} {s : State} {c : Cause} (h : trapCondition i s = some c) :
    effectOf i s = .trap c :=
  (causeOf_iff _ _).mp ((trapCondition_eq i s).symm.trans h)

/-- The counters after a completion: in sequence or a delayed transfer, or for `calli` alone the trap address (R33). -/
theorem flowPc_effectOf (i : Instr) (s : State) :
    Ends (fun _ f => flowPc s f = s.nxtpc ∨ (i.mnemonic = .calli ∧ flowPc s f = 0x80000000)) (effectOf i s) := by
  apply ends_effectOf
  case calli => exact fun rd hi _ => .inr ⟨hi, rfl⟩
  case seq => exact .inl rfl
  all_goals intros; exact .inl rfl

/-- Settles O41: the trap table names exactly the traps the effects raise. -/
theorem trapConditionsTrap : Obligations.TrapConditionsTrap := by
  intro i s c taken h
  exact exec_trap i s c taken (effectOf_of_trapCondition h)

/-- Settles O42: without a trap condition the effect raises no trap, so the instruction completed. -/
theorem noOtherTraps : Obligations.NoOtherTraps := by
  intro i s t no_trap h
  obtain ⟨-, ⟨u, f, effect, rfl⟩ | ⟨c, effect, -⟩⟩ := exec_next i s t h
  · exact ⟨rfl, rfl, flowPc_effectOf i s u f effect⟩
  · rw [trapCondition_eq, effect] at no_trap
    cases no_trap

/-- Settles O43: with traps masked, raising one is refused. -/
theorem maskedTrapRefused : Obligations.MaskedTrapRefused := by
  intro i s c nothing_pending masked disabled h
  rw [exec_eq, effectOf_of_trapCondition h, conclude_ready _ _ _ _ (.inl nothing_pending)]
  exact raiseTrap_masked c s nothing_pending masked disabled

/-- Settles O44: the instruction is not barred, so it comes to raise its trap, and that is refused. -/
theorem trapAfterPutpswRefused : Obligations.TrapAfterPutpswRefused := by
  intro i s c pending not_barred h
  have allowed : i.scc = false ∧ neverAfterPutpsw i = false := Bool.or_eq_false_iff.mp not_barred
  rw [exec_eq, effectOf_of_trapCondition h, conclude_ready _ _ _ _ (.inr allowed)]
  exact raiseTrap_pending c s pending

end Sys2Proof.Machine
end

section
/-! PROOFS. The checks of the transfers, the loads and stores and the privileged instructions: what each refuses, where
it traps, and what an instruction leaves that passes them (R104, R120 to R125, R140 to R147, R242 to R246). -/

namespace Sys2Proof.Machine

/-! ### Checks that stop an instruction -/

theorem privileged_user (s : State) (e : Effect) (user : s.psw.s = false) : privileged s e = .trap .privileged :=
  if_neg (by simp [user])

theorem whenCond_untaken (c : Cond) (s : State) (e : Effect) (h : condHolds c s.psw = some false) :
    whenCond c s e = .done s .seq := by
  rw [whenCond, h]

theorem windowCheckCall_refuse (s : State) (w : Window) (e : Effect) (hw : w = s.psw.swp)
    (h : s.params.windowCheck = .refuse) : windowCheckCall s w e = .refuse (s.refusal .windowOverflow) := by
  rw [windowCheckCall, if_pos hw, h]

theorem windowCheckCall_trap (s : State) (w : Window) (e : Effect) (hw : w = s.psw.swp)
    (h : s.params.windowCheck = .trap) : windowCheckCall s w e = .trap .windowOverflow := by
  rw [windowCheckCall, if_pos hw, h]

theorem windowCheckReturn_refuse (s : State) (w : Window) (e : Effect) (hw : w = s.psw.swp)
    (h : s.params.windowCheck = .refuse) : windowCheckReturn s w e = .refuse (s.refusal .windowUnderflow) := by
  rw [windowCheckReturn, if_pos hw, h]

theorem windowCheckReturn_trap (s : State) (w : Window) (e : Effect) (hw : w = s.psw.swp)
    (h : s.params.windowCheck = .trap) : windowCheckReturn s w e = .trap .windowUnderflow := by
  rw [windowCheckReturn, if_pos hw, h]

/-! ### The effects of the transfers, by the check each comes to -/

/-- The address of a `callx`, whose second source is `r0` (R142). -/
@[simp] theorem absAddr_r0 (s : State) (rs1 : RegName) : absAddr s rs1 (.reg 0) = s.x rs1 :=
  BitVec.add_zero (s.x rs1)

theorem effectOf_callx (scc : Bool) (rd rs1 : RegName) (s : State) :
    effectOf (.callx scc rd rs1 (.reg 0)) s = callEffect scc rd (s.x rs1) s := by
  rw [effectOf, if_pos rfl, absAddr_r0]

theorem callEffect_aligned (scc : Bool) (rd : RegName) (ea : Word) (s : State) (ha : ea.toNat % 4 = 0) :
    callEffect scc rd ea s =
      windowCheckCall s (callWindow s.psw.cwp)
        (.done (callFlags scc ((s.setCwp (callWindow s.psw.cwp)).writeX rd s.pc)) (.jump ea)) :=
  alignedTarget_pass _ _ ha

theorem jumpEffect_taken (c : Cond) (ea : Word) (s : State) (h : condHolds c s.psw = some true) :
    jumpEffect false c ea s = alignedTarget ea (.done s (.jump ea)) :=
  whenCond_taken c s _ h

theorem effectOf_ret_taken (c : Cond) (rs1 : RegName) (s2 : Src2) (s : State) (h : condHolds c s.psw = some true) :
    effectOf (.ret false c rs1 s2) s =
      alignedTarget (absAddr s rs1 s2) (windowCheckReturn s (returnWindow s.psw.cwp)
        (.done (s.setCwp (returnWindow s.psw.cwp)) (.jump (absAddr s rs1 s2)))) :=
  whenCond_taken c s _ h

theorem effectOf_reti_system (scc : Bool) (c : Cond) (rs1 : RegName) (s2 : Src2) (s : State) (hmode : s.psw.s = true)
    (h : condHolds c s.psw = some true) :
    effectOf (.reti scc c rs1 s2) s =
      alignedTarget (absAddr s rs1 s2) (windowCheckReturn s (returnWindow s.psw.cwp)
        (.done (returnFromTrap s) (.jump (absAddr s rs1 s2)))) :=
  (privileged_pass s _ hmode).trans (whenCond_taken c s _ h)

/-! ### Calls (R121, R142, R143) -/

/-- The register written when a call has moved to its new window. -/
theorem onlyRegister_newWindow {s t : State} {w : Window} {rd : RegName} {v : Word}
    (h : t.regs = ((s.setCwp w).writeX rd v).regs) : OnlyRegister s t w rd v :=
  onlyRegister_congr (s.setCwp w) ((s.setCwp w).writeXw w rd v) s t w rd v rfl h (onlyRegister_writeXw _ _ _ _)

/-- A call that passes its checks, with either SCC bit: the codes it leaves with SCC = 1 are a free value. -/
theorem exec_call (i : Instr) (rd : RegName) (ea : Word) (s : State) (nothing_pending : s.pswNext = none)
    (window : callWindow s.psw.cwp ≠ s.psw.swp ∨ s.params.windowCheck = .none) (aligned : ea.toNat % 4 = 0)
    (effect : effectOf i s = callEffect i.scc rd ea s) :
    ∃ t, exec i s = .next t ∧ OnlyRegister s t (s.psw.cwp - 1) rd s.pc ∧
      PswAfter s t (if i.scc then { s.psw with cwp := s.psw.cwp - 1 }.setCodes (garbageFlags s.draws)
        else { s.psw with cwp := s.psw.cwp - 1 }) ∧ SameMemory s t ∧ Advances s t ea i.scc := by
  rw [callEffect_aligned _ _ _ _ aligned, windowCheckCall_pass _ _ _ window] at effect
  refine ⟨_, exec_done i s _ _ (.inl nothing_pending) effect, onlyRegister_newWindow (by simp; rfl), ?_,
    fun a => by simp, advances_retire _ _ _ (by simp) (by simp) (by simp) _ rfl⟩
  have status := pswAfter_retire i.scc s (callFlags i.scc ((s.setCwp (callWindow s.psw.cwp)).writeX rd s.pc)) (.jump ea)
    (by simp)
  rw [callFlags_psw, writeX_psw, setCwp_psw, writeX_draws, setCwp_draws] at status
  exact status

/-- Settles O28: both calls are the one call of R142 and R143. -/
theorem callResults : Obligations.CallResults := by
  intro rd rs1 imm19 s nothing_pending window p hp aligned
  simp only [List.mem_cons, List.not_mem_nil, or_false] at hp
  obtain rfl | rfl := hp
  · exact exec_call (.callx false rd rs1 (.reg 0)) rd _ s nothing_pending window aligned (effectOf_callx ..)
  · exact exec_call (.callr false rd imm19) rd _ s nothing_pending window aligned rfl

/-- Settles O29: the same call with SCC = 1, whose codes are the next free value. -/
theorem callWithSccLeavesCodesFree : Obligations.CallWithSccLeavesCodesFree := by
  intro rd rs1 imm19 s nothing_pending window p hp aligned
  simp only [List.mem_cons, List.not_mem_nil, or_false] at hp
  obtain rfl | rfl := hp
  · obtain ⟨t, call⟩ :=
      exec_call (.callx true rd rs1 (.reg 0)) rd _ s nothing_pending window aligned (effectOf_callx ..)
    exact ⟨t, _, call⟩
  · obtain ⟨t, call⟩ := exec_call (.callr true rd imm19) rd _ s nothing_pending window aligned rfl
    exact ⟨t, _, call⟩

/-- Settles O35: in system mode and past the window check, `calli` is a call that sets the counters at once. -/
theorem calliResult : Obligations.CalliResult := by
  intro scc rd s nothing_pending system window
  change callWindow s.psw.cwp ≠ s.psw.swp ∨ _ at window
  have effect : effectOf (.calli scc rd) s =
      .done ((s.setCwp (callWindow s.psw.cwp)).writeX rd s.lstpc) (.pcset trapVector) := by
    rw [effectOf, privileged_pass _ _ system, windowCheckCall_pass _ _ _ window]
  have status := pswAfter_retire scc s ((s.setCwp (callWindow s.psw.cwp)).writeX rd s.lstpc) (.pcset trapVector)
    (by simp)
  rw [writeX_psw, setCwp_psw] at status
  exact ⟨_, exec_done _ s _ _ (.inl nothing_pending) effect, onlyRegister_newWindow rfl, status, fun a => by simp,
    rfl, rfl, rfl, rfl, by simp, by simp, by simp⟩

/-! ### Jumps and returns (R144 to R147) -/

/-- A completion that leaves the state as it was but for the counters. -/
theorem exec_transfer {i : Instr} {s : State} {f : Flow}
    (ready : s.pswNext = none ∨ (i.scc = false ∧ neverAfterPutpsw i = false)) (effect : effectOf i s = .done s f)
    (hf : flowPc s f = s.nxtpc) : ∃ t, exec i s = .next t ∧ NothingWritten s t i.scc (flowNxtpc s f) s.psw :=
  ⟨_, exec_done i s s f ready effect, nothingWritten_retire i.scc s s f rfl rfl rfl rfl rfl rfl hf⟩

/-- Settles O31: a taken jump to an aligned target completes with the delayed transfer alone. -/
theorem jumpTaken : Obligations.JumpTaken := by
  intro c rs1 s2 imm19 s taken p hp aligned
  have jump := jumpEffect_taken c p.2 s taken
  rw [alignedTarget_pass _ _ aligned] at jump
  simp only [List.mem_cons, List.not_mem_nil, or_false] at hp
  obtain rfl | rfl := hp
  · exact exec_transfer (i := .jmpx false c rs1 s2) (.inr ⟨rfl, rfl⟩) jump rfl
  · exact exec_transfer (i := .jmpr false c imm19) (.inr ⟨rfl, rfl⟩) jump rfl

/-- Settles O32: the condition is looked at before the target. -/
theorem untakenTransferHasNoEffect : Obligations.UntakenTransferHasNoEffect := by
  intro c rs1 s2 imm19 scc s untaken
  have nothing (e : Effect) : whenCond c s e = .done s .seq := whenCond_untaken c s e untaken
  refine ⟨fun i hi => ?_, fun nothing_pending => ?_, fun nothing_pending system => ?_⟩
  · simp only [List.mem_cons, List.not_mem_nil, or_false] at hi
    obtain rfl | rfl := hi
    · exact exec_transfer (i := .jmpx false c rs1 s2) (.inr ⟨rfl, rfl⟩) (nothing _) rfl
    · exact exec_transfer (i := .jmpr false c imm19) (.inr ⟨rfl, rfl⟩) (nothing _) rfl
  · exact exec_transfer (i := .ret false c rs1 s2) (.inl nothing_pending) (nothing _) rfl
  · exact exec_transfer (i := .reti scc c rs1 s2) (.inl nothing_pending)
      ((privileged_pass s _ system).trans (nothing _)) rfl

/-- Settles O33: past its checks, `ret` moves up one window and starts the delayed transfer. -/
theorem returnTaken : Obligations.ReturnTaken := by
  intro c rs1 s2 s nothing_pending taken window aligned
  have effect := effectOf_ret_taken c rs1 s2 s taken
  rw [alignedTarget_pass (absAddr s rs1 s2) _ aligned, windowCheckReturn_pass s (returnWindow s.psw.cwp) _ window]
    at effect
  exact ⟨_, exec_done _ s _ _ (.inl nothing_pending) effect,
    nothingWritten_retire false s (s.setCwp (returnWindow s.psw.cwp)) (.jump (absAddr s rs1 s2))
      rfl rfl rfl rfl rfl rfl rfl⟩

/-! ### Window checks (R246) -/

section
variable {i : Instr} {s : State} {w : Window} {e : Effect}

theorem exec_windowCheckCall (nothing_pending : s.pswNext = none) (window : w = s.psw.swp)
    (effect : effectOf i s = windowCheckCall s w e) :
    (s.params.windowCheck = .refuse → exec i s = .refused (.windowOverflow (fetchedWord s) s.pc)) ∧
      (s.params.windowCheck = .trap → TrapsTaken s → ∃ t, exec i s = .next t ∧ TrapEntered s t) :=
  ⟨fun h => exec_refuse i s _ (.inl nothing_pending) (effect.trans (windowCheckCall_refuse s w e window h)),
    fun h taken => exec_trap i s _ taken (effect.trans (windowCheckCall_trap s w e window h))⟩

theorem exec_windowCheckReturn (nothing_pending : s.pswNext = none) (window : w = s.psw.swp)
    (effect : effectOf i s = windowCheckReturn s w e) :
    (s.params.windowCheck = .refuse → exec i s = .refused (.windowUnderflow (fetchedWord s) s.pc)) ∧
      (s.params.windowCheck = .trap → TrapsTaken s → ∃ t, exec i s = .next t ∧ TrapEntered s t) :=
  ⟨fun h => exec_refuse i s _ (.inl nothing_pending) (effect.trans (windowCheckReturn_refuse s w e window h)),
    fun h taken => exec_trap i s _ taken (effect.trans (windowCheckReturn_trap s w e window h))⟩

end

/-- Settles O30: past the mode, condition and alignment checks, each of the five comes to its window check. -/
theorem windowChecks : Obligations.WindowChecks := by
  intro scc rd rs1 imm19 c s2 s nothing_pending
  refine ⟨fun window aligned_x aligned_r i hi system => ?_, fun window taken aligned i hi system => ?_⟩
  · simp only [List.mem_cons, List.not_mem_nil, or_false] at hi
    obtain rfl | rfl | rfl := hi
    · exact exec_windowCheckCall nothing_pending window
        ((effectOf_callx ..).trans (callEffect_aligned scc rd _ s aligned_x))
    · exact exec_windowCheckCall nothing_pending window (callEffect_aligned scc rd _ s aligned_r)
    · exact exec_windowCheckCall nothing_pending window (privileged_pass s _ (system rfl))
  · simp only [List.mem_cons, List.not_mem_nil, or_false] at hi
    obtain rfl | rfl := hi
    · exact exec_windowCheckReturn nothing_pending window
        ((effectOf_ret_taken _ _ _ _ taken).trans (alignedTarget_pass _ _ aligned))
    · exact exec_windowCheckReturn nothing_pending window
        ((effectOf_reti_system _ _ _ _ _ (system rfl) taken).trans (alignedTarget_pass _ _ aligned))

/-! ### Forbidden forms (R104, R140) -/

/-- Settles O34: with nothing pending, each form comes to its own refusal. -/
theorem forbiddenFormsRefused : Obligations.ForbiddenFormsRefused := by
  intro c rd rs1 rs2 s2 imm19 scc s nothing_pending
  have refused (i : Instr) (r : Refusal) (effect : effectOf i s = .refuse r) : exec i s = .refused r :=
    exec_refuse i s r (.inl nothing_pending) effect
  refine ⟨refused _ _ rfl, refused _ _ rfl, refused _ _ rfl, refused _ _ rfl, fun h => refused _ _ (if_neg h),
    fun h => refused _ _ (if_neg h), refused _ _ rfl, refused _ _ rfl, refused _ _ rfl,
    fun system => refused _ _ (privileged_pass s _ system), refused _ _ rfl, refused _ _ rfl, refused _ _ rfl⟩

/-! ### Alignment and mode traps (R242 to R244) -/

/-- Settles O45: each of the ten accesses checks the alignment of its width before anything else. -/
theorem misalignedDataTraps : Obligations.MisalignedDataTraps := by
  intro scc rd rs1 s2 imm13 imm19 s taken p hp misaligned
  have load (i : Instr) (k : LoadKind) (ea : Word) (effect : effectOf i s = loadEffect k scc rd ea s)
      (h : ea.toNat % widthBytes (loadWidth k) ≠ 0) : ∃ t, exec i s = .next t ∧ TrapEntered s t :=
    exec_trap i s _ taken (effect.trans (loadEffect_misaligned k scc rd ea s h))
  have store (i : Instr) (w : Width) (ea : Word) (after : State → State)
      (effect : effectOf i s = storeEffect w rd ea after s)
      (h : ea.toNat % widthBytes w ≠ 0) : ∃ t, exec i s = .next t ∧ TrapEntered s t :=
    exec_trap i s _ taken (effect.trans (storeEffect_misaligned w rd ea after s h))
  simp only [List.mem_cons, List.not_mem_nil, or_false] at hp
  obtain rfl | rfl | rfl | rfl | rfl | rfl | rfl | rfl | rfl | rfl := hp
  · exact load (.ldxw ..) .word _ rfl misaligned
  · exact load (.lxhu ..) .halfU _ rfl misaligned
  · exact load (.lxhs ..) .halfS _ rfl misaligned
  · exact load (.ldrw ..) .word _ rfl misaligned
  · exact load (.lrhu ..) .halfU _ rfl misaligned
  · exact load (.lrhs ..) .halfS _ rfl misaligned
  · exact store (.stxw scc rd rs1 (.imm imm13)) .word _ _ rfl misaligned
  · exact store (.stxh scc rd rs1 (.imm imm13)) .half _ _ rfl misaligned
  · exact store (.strw scc rd imm19) .word _ _ rfl misaligned
  · exact store (.strh scc rd imm19) .half _ _ rfl misaligned

/-- Settles O46: past the mode and the condition, each of the six transfers checks its target. -/
theorem misalignedTargetTraps : Obligations.MisalignedTargetTraps := by
  intro scc c rd rs1 s2 imm19 s taken holds p hp system misaligned
  have target (i : Instr) (ea : Word) (e : Effect) (effect : effectOf i s = alignedTarget ea e)
      (h : ea.toNat % 4 ≠ 0) : ∃ t, exec i s = .next t ∧ TrapEntered s t :=
    exec_trap i s _ taken (effect.trans (alignedTarget_trap ea e h))
  simp only [List.mem_cons, List.not_mem_nil, or_false] at hp
  obtain rfl | rfl | rfl | rfl | rfl | rfl := hp
  · exact target (.callx scc rd rs1 (.reg 0)) _ _ (effectOf_callx ..) misaligned
  · exact target (.callr scc rd imm19) _ _ rfl misaligned
  · exact target (.jmpx false c rs1 s2) _ _ (jumpEffect_taken _ _ _ holds) misaligned
  · exact target (.jmpr false c imm19) _ _ (jumpEffect_taken _ _ _ holds) misaligned
  · exact target (.ret false c rs1 s2) _ _ (effectOf_ret_taken _ _ _ _ holds) misaligned
  · exact target (.reti scc c rs1 s2) _ _ (effectOf_reti_system _ _ _ _ _ (system rfl) holds) misaligned

/-- Settles O48: the mode is checked first, but for `putpsw` with SCC = 1. -/
theorem privilegedTrapsInUserMode : Obligations.PrivilegedTrapsInUserMode := by
  intro i s taken user priv scc_off
  have traps (e : Effect) (effect : effectOf i s = privileged s e) : ∃ t, exec i s = .next t ∧ TrapEntered s t :=
    exec_trap i s .privileged taken (effect.trans (privileged_user s e user))
  cases i with
  | calli | getlpc | reti => exact traps _ rfl
  | putpsw scc rs1 s2 =>
    obtain rfl : scc = false := scc_off rfl
    exact traps _ rfl
  | _ => exact nomatch priv

end Sys2Proof.Machine
end

section
/-! PROOFS. The register windows (R23 to R26). -/

namespace Sys2Proof.Machine

theorem phys_global (w : Window) (i : RegName) (h : i.toNat < 10) : (phys w i).val = i.toNat := by
  simp [phys, h]

theorem phys_windowed (w : Window) (i : RegName) (h : 10 ≤ i.toNat) :
    (phys w i).val = 10 + (16 * w.toNat + (i.toNat - 10)) % 128 := by
  simp [phys, Nat.not_lt.mpr h]

theorem toNat_register (n : Nat) (h : n < 32) : (BitVec.ofNat 5 n).toNat = n := by
  rw [BitVec.toNat_ofNat, Nat.mod_eq_of_lt h]

/-- The next lower window lies 16 registers further on in the circle of 128 (R23, R24). -/
theorem callWindow_toNat (w : Window) : 16 * (w - 1).toNat % 128 = (16 * w.toNat + 112) % 128 := by
  have := w.isLt
  rw [BitVec.toNat_sub]
  simp
  omega

/-- Settles O12: the in registers of the lower window start 16 above its outs; the locals of the eight windows are
disjoint blocks of the circle; the globals lie outside it. -/
theorem windowsOverlap : Obligations.WindowsOverlap := by
  refine ⟨fun w k hk => ?_, fun w v i j low high h => ?_, fun w v i hi => ?_⟩
  · apply Fin.ext
    have lower := callWindow_toNat w
    rw [phys_windowed _ _ (by rw [toNat_register _ (by omega)]; omega),
      phys_windowed _ _ (by rw [toNat_register _ (by omega)]; omega), toNat_register _ (by omega),
      toNat_register _ (by omega)]
    omega
  · have hw := w.isLt
    have hv := v.isLt
    have hj := j.isLt
    have same := congrArg Fin.val h
    rw [phys_windowed w i (by omega)] at same
    by_cases global : j.toNat < 10
    · rw [phys_global v j global] at same
      omega
    · rw [phys_windowed v j (by omega)] at same
      exact ⟨BitVec.eq_of_toNat_eq (by omega), BitVec.eq_of_toNat_eq (by omega)⟩
  · apply Fin.ext
    rw [phys_global w i (by omega), phys_global v i (by omega)]

/-- Settles O13: by whether the two names are `r0` and whether they stand for one physical register. -/
theorem registerWriteThenRead : Obligations.RegisterWriteThenRead := by
  intro s w w' i j v
  by_cases hj : j = 0
  · rw [if_pos hj, hj, xw_r0]
  rw [if_neg hj]
  split
  · rename_i same
    obtain ⟨hi, hphys⟩ := same
    have written := xw_writeXw_same s w i v hi
    rw [xw_of_ne _ _ _ hi] at written
    rw [xw_of_ne _ _ _ hj]
    simpa only [hphys] using written
  · rename_i different
    by_cases hi : i = 0
    · rw [hi, writeXw_r0]
    · exact xw_writeXw_other s w w' i j v fun hphys => different ⟨hi, hphys⟩

end Sys2Proof.Machine
end

section
/-! PROOFS. Addresses, subtraction and the conditions as arithmetic (R97, R140, R181, R185). -/

namespace Sys2Proof.Machine

/-- Settles O15: each extension has the unsigned or the signed value of `imm19`. -/
theorem relativeAddress : Obligations.RelativeAddress := by
  intro s b
  constructor
  · intro zero
    rw [relAddr, zero, BitVec.toNat_add, BitVec.toNat_setWidth_of_le (by decide)]
  · intro sign
    have value : (b.signExtend 32).toInt = b.toInt := BitVec.toInt_signExtend_of_le (by decide)
    rw [relAddr, sign, ← value, BitVec.toNat_add]
    have positive := BitVec.toInt_eq_toNat_cond (b.signExtend 32)
    omega

/-- The complement of a word is its negative less one, signed and unsigned. -/
theorem subOf_eq_addOf (p q : Word) (c : Nat) : subOf p q ((c : Int) - 1) = addOf p (~~~q) c := by
  have hq := q.isLt
  have unsigned : ((~~~q).toNat : Int) = 2 ^ 32 - 1 - q.toNat := by rw [BitVec.toNat_not]; omega
  have signed : (~~~q).toInt = -1 - q.toInt := by
    have whole := BitVec.toInt_eq_toNat_cond q
    have complement := BitVec.toInt_eq_toNat_cond (~~~q)
    omega
  have res : (subOf p q ((c : Int) - 1)).res = (addOf p (~~~q) c).res := by
    apply BitVec.eq_of_toNat_eq
    simp only [subOf, addOf, BitVec.toNat_ofInt, BitVec.toNat_ofNat]
    omega
  have carry : (subOf p q ((c : Int) - 1)).c = (addOf p (~~~q) c).c := decide_eq_decide.mpr (by omega)
  have overflow : (subOf p q ((c : Int) - 1)).v = (addOf p (~~~q) c).v := by
    simp only [subOf, addOf, signed]
    congr 1
    omega
  cases hs : subOf p q ((c : Int) - 1)
  cases ha : addOf p (~~~q) c
  simp_all

/-- Settles O16: `Sub` adjusted by `c - 1` is `Add` of the complement with carry `c`, here for 1 and for the flag. -/
theorem subtractionIsAdditionOfComplement : Obligations.SubtractionIsAdditionOfComplement :=
  ⟨fun p q => subOf_eq_addOf p q 1, fun p q c => subOf_eq_addOf p q (carryNat c)⟩

/-- After a subtraction `N` is the sign of the difference, which `V` tells to be the wrong one: together they say which
operand is the lesser, signed. -/
theorem negative_xor_overflow (a b : Word) :
    ((arithFlags (subOf a b 0)).n ^^ (arithFlags (subOf a b 0)).v) = decide (a.toInt < b.toInt) := by
  have negative : (arithFlags (subOf a b 0)).n = decide ((a - b).toInt < 0) := by
    rw [arithFlags, subOf_res, signBit, BitVec.msb_eq_toInt]
  have wraps : (a - b).toInt = (a.toInt - b.toInt).bmod (2 ^ 32) := BitVec.toInt_sub ..
  have a_low := BitVec.le_toInt a
  have a_high := BitVec.toInt_lt (x := a)
  have b_low := BitVec.le_toInt b
  have b_high := BitVec.toInt_lt (x := b)
  rw [Int.bmod_def] at wraps
  rw [negative, Bool.eq_iff_iff, Bool.xor_iff_ne, decide_eq_true_eq]
  simp only [arithFlags, subOf, signedOverflow, ← Bool.decide_or, ne_eq, decide_eq_decide]
  split at wraps <;> omega

theorem zero_subOf (a b : Word) : (arithFlags (subOf a b 0)).z = decide (a = b) := by
  rw [arithFlags_subOf]

theorem carry_subOf (a b : Word) : (arithFlags (subOf a b 0)).c = decide (b.toNat ≤ a.toNat) := by
  rw [arithFlags_subOf]

/-- Settles O17: `N` and `V` give the signed order, `C` the unsigned one, `Z` equality; every condition is built of
these. -/
theorem conditionsCompare : Obligations.ConditionsCompare := by
  intro q a b
  refine ⟨rfl, rfl, rfl, rfl, rfl, ?_⟩
  have signed := negative_xor_overflow a b
  have unsigned := carry_subOf a b
  have equal := zero_subOf a b
  have le_int : a.toInt < b.toInt ∨ a = b ↔ a.toInt ≤ b.toInt := by rw [← BitVec.toInt_inj]; omega
  have le_nat : a.toNat < b.toNat ∨ a = b ↔ a.toNat ≤ b.toNat := by rw [← BitVec.toNat_inj]; omega
  simp only [condHolds, withFlags_n, withFlags_v, withFlags_z, withFlags_c, signed, unsigned, equal, ← decide_not,
    ← Bool.decide_or, le_int, le_nat, Int.not_le, Int.not_lt, Nat.not_le, ne_eq, and_self]

end Sys2Proof.Machine
end

section
/-! PROOFS. What shifts, logic, subtraction with carry, loads and stores leave (R160 to R227). -/

namespace Sys2Proof.Machine

/-! ### Shifts and logic (R160 to R168) -/

theorem shiftLeft_eq_mul (a : Word) (n : Nat) : a <<< n = BitVec.ofNat 32 (a.toNat * 2 ^ n) := by
  apply BitVec.eq_of_toNat_eq
  rw [BitVec.toNat_shiftLeft, BitVec.toNat_ofNat, Nat.shiftLeft_eq]

theorem shiftRight_eq_div (a : Word) (n : Nat) : a >>> n = BitVec.ofNat 32 (a.toNat / 2 ^ n) := by
  apply BitVec.eq_of_toNat_eq
  rw [BitVec.toNat_ushiftRight, BitVec.toNat_ofNat, Nat.shiftRight_eq_div_pow,
    Nat.mod_eq_of_lt (Nat.lt_of_le_of_lt (Nat.div_le_self _ _) a.isLt)]

theorem highImm_eq_mul (b : BitVec 19) : highImm b = BitVec.ofNat 32 (b.toNat * 2 ^ 13) := by
  apply BitVec.eq_of_toNat_eq
  have := b.isLt
  rw [highImm, BitVec.toNat_append, BitVec.toNat_ofNat, Nat.shiftLeft_eq]
  simp
  omega

/-- Settles O19: the three results are shifts by `S2 mod 32`, which multiply or divide by a power of two. -/
theorem shiftResults : Obligations.ShiftResults := by
  intro scc rd rs1 s2 s ready p hp
  rw [← shiftCount_eq, ← shiftLeft_eq_mul, ← shiftRight_eq_div, ← sshiftRight_eq_div] at hp
  simp only [List.mem_cons, List.not_mem_nil, or_false] at hp
  obtain rfl | rfl | rfl := hp
  · exact exec_logicResult (.sll scc rd rs1 s2) s rd _ ready rfl rfl
  · exact exec_logicResult (.srl scc rd rs1 s2) s rd _ ready rfl rfl
  · exact exec_logicResult (.sra scc rd rs1 s2) s rd _ ready rfl rfl

/-- Settles O20: each of the four is a result with the logic flags. -/
theorem logicResults : Obligations.LogicResults := by
  intro scc rd rs1 s2 imm19 s ready p hp
  rw [← highImm_eq_mul] at hp
  simp only [List.mem_cons, List.not_mem_nil, or_false] at hp
  obtain rfl | rfl | rfl | rfl := hp
  · exact exec_logicResult (.ldhi scc rd imm19) s rd _ ready rfl rfl
  · exact exec_logicResult (.and scc rd rs1 s2) s rd _ ready rfl rfl
  · exact exec_logicResult (.or scc rd rs1 s2) s rd _ ready rfl rfl
  · exact exec_logicResult (.xor scc rd rs1 s2) s rd _ ready rfl rfl

/-! ### Subtraction with carry (R185, R187) -/

theorem subOf_res_toNat (p q : Word) (e : Int) :
    ((subOf p q e).res.toNat : Int) = ((p.toNat : Int) - q.toNat + e) % 2 ^ 32 := by
  rw [subOf, BitVec.toNat_ofInt]
  omega

/-- The adjustment of R185 under both values of `SUBC_FORM`. -/
theorem subcAdjust_eq (form : SubcForm) (c : Bool) :
    subcAdjust form c = (c.toNat : Int) - (if form = .borrow then 1 else 0) := by
  cases form with
  | literal => cases c <;> rfl
  | borrow => cases c <;> rfl

theorem arithFlags_subOf_adjusted (p q : Word) (e : Int) :
    arithFlags (subOf p q e) =
      ⟨decide ((subOf p q e).res = 0), (subOf p q e).res.msb,
        decide (¬(-2 ^ 31 ≤ p.toInt - q.toInt + e ∧ p.toInt - q.toInt + e ≤ 2 ^ 31 - 1)),
        decide (0 ≤ (p.toNat : Int) - q.toNat + e)⟩ := by
  have overflow : (subOf p q e).v =
      decide (¬(-2 ^ 31 ≤ p.toInt - q.toInt + e ∧ p.toInt - q.toInt + e ≤ 2 ^ 31 - 1)) := by
    rw [subOf, signedOverflow, ← Bool.decide_or]
    exact decide_eq_decide.mpr (by omega)
  rw [arithFlags, overflow]
  rfl

/-- An instruction whose effect is `Sub` of two operands, adjusted. -/
theorem exec_adjusted_subtraction {i : Instr} {s : State} {rd : RegName} {p q : Word} {e : Int}
    (ready : s.pswNext = none ∨ i.scc = false) (hn : neverAfterPutpsw i = false)
    (he : effectOf i s = arithResult i.scc rd (subOf p q e) s) :
    ∃ t res, exec i s = .next t ∧ (res.toNat : Int) = ((p.toNat : Int) - q.toNat + e) % 2 ^ 32 ∧
      RegisterResult s t i.scc rd res
        ⟨decide (res = 0), res.msb,
          decide (¬(-2 ^ 31 ≤ p.toInt - q.toInt + e ∧ p.toInt - q.toInt + e ≤ 2 ^ 31 - 1)),
          decide (0 ≤ (p.toNat : Int) - q.toNat + e)⟩ := by
  obtain ⟨t, completes, result⟩ := exec_arithResult i s rd _ ready hn he
  rw [arithFlags_subOf_adjusted] at result
  exact ⟨t, (subOf p q e).res, completes, subOf_res_toNat p q e, result⟩

/-- Settles O23: both are `Sub` adjusted as `SUBC_FORM` says, `subci` with its operands exchanged. -/
theorem subtractionWithCarryResults : Obligations.SubtractionWithCarryResults := by
  intro scc rd rs1 s2 s ready p hp e he
  obtain rfl : e = subcAdjust s.params.subcForm s.psw.c := he.trans (subcAdjust_eq _ _).symm
  simp only [List.mem_cons, List.not_mem_nil, or_false] at hp
  obtain rfl | rfl := hp
  · exact exec_adjusted_subtraction (i := .subc scc rd rs1 s2) ready rfl rfl
  · exact exec_adjusted_subtraction (i := .subci scc rd rs1 s2) ready rfl rfl

/-! ### Memory (R61, R62) -/

/-- Settles O18: the bytes from the address are the stored ones, and these denote the low bytes of the value. -/
theorem memoryWriteThenRead : Obligations.MemoryWriteThenRead := by
  intro e m w a v wf aligned
  refine ⟨?_, fun b outside => memByte_memWrite_other e m w a v b aligned outside⟩
  have stored := storeBytes_toNat e w v
  rw [← memBytes_memWrite e m w a v wf aligned] at stored
  cases e with
  | big => exact stored
  | little => exact stored

/-! ### Loads (R200 to R212) -/

/-- A load of an aligned address, at whatever the map keeps there. -/
theorem exec_load {i : Instr} {s : State} {rd : RegName} {ea : Word} (k : LoadKind)
    (ready : s.pswNext = none ∨ i.scc = false) (hn : neverAfterPutpsw i = false)
    (he : effectOf i s = loadEffect k i.scc rd ea s) (aligned : ea.toNat % widthBytes (loadWidth k) = 0) :
    ∃ t v, exec i s = .next t ∧ RegisterResult s t i.scc rd v (logicCodes v) ∧
      (holdsMemory s.params ea (widthBytes (loadWidth k)) = true →
        v = extendNat k (memNat s.params.endian s.mem ea.toNat (widthBytes (loadWidth k)))) ∧
      ∀ b : Byte, readsEmpty s.params ea (widthBytes (loadWidth k)) b = true →
        v = extendNat k (bytesNat (List.replicate (widthBytes (loadWidth k)) b)) := by
  obtain ⟨t, completes, result⟩ := exec_loadEffect i s k rd ea ready hn he aligned
  exact ⟨t, _, completes, result, loadValue_memory k s ea aligned, fun b => loadValue_empty k s ea b aligned⟩

/-- Settles O24: each is the load of its width and extension. -/
theorem absoluteLoadResults : Obligations.AbsoluteLoadResults := by
  intro scc rd rs1 s2 s ready p hp aligned
  simp only [List.mem_cons, List.not_mem_nil, or_false] at hp
  obtain rfl | rfl | rfl | rfl | rfl := hp
  · exact exec_load (i := .ldxw scc rd rs1 s2) .word ready rfl rfl aligned
  · exact exec_load (i := .lxhu scc rd rs1 s2) .halfU ready rfl rfl aligned
  · exact exec_load (i := .lxhs scc rd rs1 s2) .halfS ready rfl rfl aligned
  · exact exec_load (i := .lxbu scc rd rs1 s2) .byteU ready rfl rfl aligned
  · exact exec_load (i := .lxbs scc rd rs1 s2) .byteS ready rfl rfl aligned

/-- Settles O25: the same loads of the PC-relative address. -/
theorem relativeLoadResults : Obligations.RelativeLoadResults := by
  intro scc rd imm19 s ready p hp aligned
  simp only [List.mem_cons, List.not_mem_nil, or_false] at hp
  obtain rfl | rfl | rfl | rfl | rfl := hp
  · exact exec_load (i := .ldrw scc rd imm19) .word ready rfl rfl aligned
  · exact exec_load (i := .lrhu scc rd imm19) .halfU ready rfl rfl aligned
  · exact exec_load (i := .lrhs scc rd imm19) .halfS ready rfl rfl aligned
  · exact exec_load (i := .lrbu scc rd imm19) .byteU ready rfl rfl aligned
  · exact exec_load (i := .lrbs scc rd imm19) .byteS ready rfl rfl aligned

/-! ### Stores (R220 to R227) -/

/-- What an aligned store of `v` at `ea` leaves in the memory of `t`. -/
def Stored (s t : State) (ea v : Word) (n : Nat) : Prop :=
  (plainMemory s.params ea n = true → memNat s.params.endian t.mem ea.toNat n = v.toNat % 2 ^ (8 * n)) ∧
    SameMemoryOutside s t ea.toNat n ∧
    ∀ k < n, memByte t.mem (ea.toNat + k) =
      if regionKind s.params (ea.toNat + k) = .ram then storedByte s.params.endian n v k
      else memByte s.mem (ea.toNat + k)

theorem stored_busWrite {s t : State} {w : Width} {ea v : Word} (wf : s.mem.wf = true)
    (aligned : ea.toNat % widthBytes w = 0) (hmem : t.mem = busWrite s w ea v) : Stored s t ea v (widthBytes w) := by
  rw [Stored, SameMemoryOutside, hmem]
  refine ⟨fun plain => ?_, fun b outside => memByte_busWrite_other s w ea v b aligned outside, fun k hk => ?_⟩
  · rw [busWrite_plain s w ea v aligned plain]
    exact (memoryWriteThenRead _ _ w ea v wf aligned).1
  · rw [memByte_busWrite_at s w ea v k hk aligned wf, storeBytes_getElem]
    simp only [beq_iff_eq]

/-- What a store leaves that completes in the state `u`, which differs from `s` in memory and the codes. -/
theorem exec_store {i : Instr} {s u : State} {w : Width} {ea v : Word} (wf : s.mem.wf = true)
    (ready : s.pswNext = none ∨ i.scc = false) (hn : neverAfterPutpsw i = false)
    (aligned : ea.toNat % widthBytes w = 0) (effect : effectOf i s = .done u .seq) (hregs : u.regs = s.regs)
    (hmem : u.mem = busWrite s w ea v) (hnext : u.pswNext = s.pswNext) (hirq : u.irq = s.irq)
    (hsteps : u.steps = s.steps) (hparams : u.params = s.params) :
    ∃ t, exec i s = .next t ∧ t.regs = s.regs ∧ Stored s t ea v (widthBytes w) ∧ PswAfter s t u.psw ∧
      Advances s t (s.nxtpc + 4) i.scc :=
  ⟨_, exec_done i s u .seq (ready.imp id fun off => ⟨off, hn⟩) effect, hregs, stored_busWrite wf aligned hmem,
    pswAfter_retire i.scc s u .seq hnext, advances_retire i.scc s u hirq hsteps hparams .seq rfl⟩

/-- A store with an immediate offset to an aligned address. -/
theorem exec_absStore {i : Instr} {s : State} {rd rs1 : RegName} {imm13 : BitVec 13} (w : Width)
    (wf : s.mem.wf = true) (ready : s.pswNext = none ∨ i.scc = false) (hn : neverAfterPutpsw i = false)
    (aligned : (s.x rs1 + imm13.signExtend 32).toNat % widthBytes w = 0)
    (effect : effectOf i s = absStore w i.scc rd rs1 (.imm imm13) s) :
    ∃ t, exec i s = .next t ∧ t.regs = s.regs ∧ Stored s t (s.x rs1 + imm13.signExtend 32) (s.x rd) (widthBytes w) ∧
      PswAfter s t (if i.scc then s.psw.setCodes (logicCodes (s.x rd)) else s.psw) ∧
      Advances s t (s.nxtpc + 4) i.scc := by
  have stores := effect.trans (storeEffect_aligned w rd (absAddr s rs1 (.imm imm13)) _ s aligned)
  obtain ⟨t, completes, regs, memory, status, counters⟩ :=
    exec_store (v := s.x rd) wf ready hn aligned stores (by simp) (by simp; rfl) (by simp) (by simp) (by simp) (by simp)
  rw [absStoreFlags_psw] at status
  exact ⟨t, completes, regs, memory, status, counters⟩

/-- Settles O26: each is the store of its width. -/
theorem absoluteStoreResults : Obligations.AbsoluteStoreResults := by
  intro scc rd rs1 imm13 s wf ready p hp a ha aligned
  subst ha
  have store : ∃ t, exec p.1 s = .next t ∧ t.regs = s.regs ∧
      Stored s t (s.x rs1 + imm13.signExtend 32) (s.x rd) p.2 ∧
      PswAfter s t (if scc then s.psw.setCodes (logicCodes (s.x rd)) else s.psw) ∧
      Advances s t (s.nxtpc + 4) scc := by
    simp only [List.mem_cons, List.not_mem_nil, or_false] at hp
    obtain rfl | rfl | rfl := hp
    · exact exec_absStore (i := .stxw scc rd rs1 (.imm imm13)) .word wf ready rfl aligned rfl
    · exact exec_absStore (i := .stxh scc rd rs1 (.imm imm13)) .half wf ready rfl aligned rfl
    · exact exec_absStore (i := .stxb scc rd rs1 (.imm imm13)) .byte wf ready rfl aligned rfl
  obtain ⟨t, completes, regs, ⟨plain, outside, bytes⟩, status, counters⟩ := store
  exact ⟨t, completes, regs, plain, outside, bytes, status, counters⟩

/-- A PC-relative store to an aligned address: with SCC = 1 it leaves two codes 0 and two free. -/
theorem exec_relStore {i : Instr} {s : State} {rd : RegName} {imm19 : BitVec 19} (w : Width)
    (wf : s.mem.wf = true) (ready : s.pswNext = none ∨ i.scc = false) (hn : neverAfterPutpsw i = false)
    (aligned : (relAddr s imm19).toNat % widthBytes w = 0) (effect : effectOf i s = relStore w i.scc rd imm19 s) :
    ∃ t v c, exec i s = .next t ∧ t.regs = s.regs ∧ Stored s t (relAddr s imm19) (s.x rd) (widthBytes w) ∧
      PswAfter s t (if i.scc then s.psw.setCodes ⟨false, false, v, c⟩ else s.psw) ∧
      Advances s t (s.nxtpc + 4) i.scc := by
  have stores := effect.trans (storeEffect_aligned w rd (relAddr s imm19) _ s aligned)
  obtain ⟨t, completes, regs, memory, status, counters⟩ :=
    exec_store (v := s.x rd) wf ready hn aligned stores (by simp) (by simp) (by simp) (by simp) (by simp) (by simp)
  rw [relStoreAfter_psw] at status
  exact ⟨t, drawBit s.draws, drawBit (s.draws + 1), completes, regs, memory, status, counters⟩

/-- Settles O27: each is the store of its width. -/
theorem relativeStoreResults : Obligations.RelativeStoreResults := by
  intro scc rd imm19 s wf ready p hp a ha aligned
  subst ha
  have store : ∃ t v c, exec p.1 s = .next t ∧ t.regs = s.regs ∧ Stored s t (relAddr s imm19) (s.x rd) p.2 ∧
      PswAfter s t (if scc then s.psw.setCodes ⟨false, false, v, c⟩ else s.psw) ∧
      Advances s t (s.nxtpc + 4) scc := by
    simp only [List.mem_cons, List.not_mem_nil, or_false] at hp
    obtain rfl | rfl | rfl := hp
    · exact exec_relStore (i := .strw scc rd imm19) .word wf ready rfl aligned rfl
    · exact exec_relStore (i := .strh scc rd imm19) .half wf ready rfl aligned rfl
    · exact exec_relStore (i := .strb scc rd imm19) .byte wf ready rfl aligned rfl
  obtain ⟨t, v, c, completes, regs, ⟨plain, outside, bytes⟩, status, counters⟩ := store
  exact ⟨t, v, c, completes, regs, plain, outside, bytes, status, counters⟩

end Sys2Proof.Machine
end

section
/-! PROOFS. The status word, reset, and the system instructions that read or write it (R34, R50 to R53, R122 to R125,
R285). -/

namespace Sys2Proof.Machine

/-! ### The 13 bits of the status word (R34) -/

theorem pswBits_toNat (q : Psw) :
    (pswBits q).toNat = q.cwp.toNat * 1024 + q.swp.toNat * 128 + q.i.toNat * 64 + q.s.toNat * 32 + q.p.toNat * 16 +
      q.z.toNat * 8 + q.n.toNat * 4 + q.v.toNat * 2 + q.c.toNat := by
  have append_toNat {m n : Nat} (x : BitVec m) (y : BitVec n) : (x ++ y).toNat = x.toNat * 2 ^ n + y.toNat := by
    rw [BitVec.toNat_append, Nat.shiftLeft_eq, Nat.mul_comm, ← Nat.two_pow_add_eq_or_of_lt y.isLt]
  simp only [pswBits, append_toNat, BitVec.toNat_ofBool]
  omega

/-- The fields of a status word are the fields of its bits. -/
theorem pswOfBits_pswBits (q : Psw) : pswOfBits (pswBits q) = q := by
  have cwp : (pswBits q).extractLsb' 10 3 = q.cwp := by
    apply BitVec.eq_of_getLsbD_eq
    intro k hk
    simp only [pswBits, BitVec.getLsbD_extractLsb', BitVec.getLsbD_append]
    interval_cases k <;> simp
  have swp : (pswBits q).extractLsb' 7 3 = q.swp := by
    apply BitVec.eq_of_getLsbD_eq
    intro k hk
    simp only [pswBits, BitVec.getLsbD_extractLsb', BitVec.getLsbD_append]
    interval_cases k <;> simp
  simp only [pswOfBits, cwp, swp]
  simp only [pswBits, BitVec.getLsbD_append, BitVec.getLsbD_ofBool]
  rfl

theorem pswBits_pswOfBits (b : BitVec 13) : pswBits (pswOfBits b) = b := by
  apply BitVec.eq_of_getLsbD_eq
  intro k hk
  simp only [pswBits, pswOfBits, BitVec.getLsbD_append, BitVec.getLsbD_ofBool, BitVec.getLsbD_extractLsb']
  interval_cases k <;> simp

/-- Settles O11: the two views are inverse, and the bits are the fields side by side. -/
theorem statusWordLayout : Obligations.StatusWordLayout :=
  ⟨pswOfBits_pswBits, pswBits_pswOfBits, pswBits_toNat⟩

/-! ### Reset (R50 to R53, R280) -/

/-- Settles O7: by the values that reset puts in the fields. -/
theorem resetLeaves : Obligations.ResetLeaves := by
  intro p
  exact ⟨rfl, rfl, rfl, rfl, rfl, fun w => xw_r0 _ w, rfl⟩

theorem sound_resetWith (p : Params) (h : admissible p = true) : (State.resetWith p).sound = true := by
  obtain ⟨-, aligned⟩ := Bool.and_eq_true_iff.mp h
  refine (sound_iff _).mpr ⟨aligned, wordAligned_add_four _ aligned, rfl, ?_, rfl⟩
  simp [State.resetWith, resetRegs]

/-- Settles O8: admissible parameters have an aligned `RESET_PC`; the default ones are admissible. -/
theorem resetSound : Obligations.ResetSound :=
  ⟨sound_resetWith defaultParams (by decide), sound_resetWith⟩

/-! ### `getlpc` and `putpsw` (R122, R123) -/

/-- Settles O36: in system mode, a register result with its own flags. -/
theorem getlpcResult : Obligations.GetlpcResult := by
  intro scc rd s ready system
  have effect : effectOf (.getlpc scc rd) s =
      .done ((s.writeX rd s.lstpc).writeFlags scc (getlpcFlags s.psw s.lstpc)) .seq := privileged_pass s _ system
  exact ⟨_, exec_done _ s _ _ (ready_of_sccOff s scc ready) effect,
    registerResult_retire s scc rd s.lstpc (getlpcFlags s.psw s.lstpc)⟩

/-- Settles O37: in system mode, the pending word is made of the low 13 bits of the sum. -/
theorem putpswResult : Obligations.PutpswResult := by
  intro rs1 s2 s nothing_pending system
  have effect : effectOf (.putpsw false rs1 s2) s =
      .done { s with pswNext := some (pswOfBits ((s.x rs1 + src2 s s2).extractLsb' 0 13)) } .seq :=
    privileged_pass s _ system
  have low13 : ((s.x rs1 + src2 s s2).extractLsb' 0 13).toNat = ((s.x rs1).toNat + (src2 s s2).toNat) % 2 ^ 13 := by
    simp
  refine ⟨_, pswOfBits ((s.x rs1 + src2 s s2).extractLsb' 0 13), exec_done _ s _ _ (.inl nothing_pending) effect,
    by simp [nothing_pending], ?_, by simp [nothing_pending], rfl, fun a => rfl, rfl, rfl, rfl, rfl, rfl, rfl, rfl⟩
  rw [pswBits_pswOfBits, low13]

/-! ### `getpsw` (R125, R285) -/

/-- The value of `getpsw`, as a number: nineteen ones, bits 12:4 of the status word, and four bits more. -/
theorem getpswValue_toNat (s : State) :
    (getpswValue s).toNat = 0xFFFFE000 + (pswBits s.psw).toNat / 16 * 16 + (getpswLow s).toNat := by
  have low := (getpswLow s).isLt
  have bits := (pswBits s.psw).isLt
  rw [getpswValue, BitVec.toNat_append, Nat.shiftLeft_eq, Nat.mul_comm, ← Nat.two_pow_add_eq_or_of_lt low,
    BitVec.toNat_append, Nat.shiftLeft_eq, Nat.mul_comm _ (2 ^ 9), ← Nat.two_pow_add_eq_or_of_lt (BitVec.isLt _)]
  simp [Nat.shiftRight_eq_div_pow]
  omega

/-- The value of `getpsw` is negative and not zero, whatever its low bits. -/
theorem getpswFlags_value (s : State) : getpswFlags (getpswValue s) = ⟨false, true, false, false⟩ := by
  have value := getpswValue_toNat s
  have nonzero : (getpswValue s == 0) = false := by
    rw [beq_eq_false_iff_ne, ne_eq, ← BitVec.toNat_inj]
    simp
    omega
  have negative : signBit (getpswValue s) = true := by
    rw [signBit, BitVec.msb_eq_decide]
    simp
    omega
  rw [getpswFlags, logicFlags, nonzero, negative]

/-- `getpsw` completes with its value, whichever low bits it reads. -/
theorem exec_getpsw (scc : Bool) (rd : RegName) (s : State) (ready : s.pswNext = none ∨ scc = false) :
    ∃ t, exec (.getpsw scc rd (.reg 0)) s = .next t ∧
      RegisterResult s t scc rd (getpswValue s) ⟨false, true, false, false⟩ := by
  have effect : effectOf (.getpsw scc rd (.reg 0)) s =
      .done (((s.writeX rd (getpswValue s)).writeFlags scc (getpswFlags (getpswValue s))).useDraws (getpswDraws s))
        .seq := by
    rw [effectOf, if_pos rfl]
  rw [← getpswFlags_value s]
  exact ⟨_, exec_done _ s _ _ (ready_of_sccOff s scc ready) effect,
    registerResult_retire s scc rd (getpswValue s) (getpswFlags (getpswValue s))⟩

/-- Settles O39: where no flags are on their way, the low four bits are those of the status word. -/
theorem getpswResult : Obligations.GetpswResult := by
  intro scc rd s ready no_scc
  have value : getpswValue s = BitVec.ofNat 32 (0xFFFFE000 + (pswBits s.psw).toNat) := by
    have bits := (pswBits s.psw).isLt
    apply BitVec.eq_of_toNat_eq
    rw [getpswValue_toNat, getpswLow, no_scc, BitVec.toNat_ofNat]
    simp
    omega
  exact value ▸ exec_getpsw scc rd s ready

/-- Settles O40: bits 31:4 do not depend on the low four. -/
theorem getpswAfterScc : Obligations.GetpswAfterScc := by
  intro scc rd s ready _
  obtain ⟨t, completes, result⟩ := exec_getpsw scc rd s ready
  refine ⟨t, getpswValue s, completes, ?_, result⟩
  have low := (getpswLow s).isLt
  have value := getpswValue_toNat s
  omega

end Sys2Proof.Machine
end

section
/-! PROOFS. The step: interrupts, the fetch through the memory map, and the end of a run (R72, R247, R282, R291). -/

namespace Sys2Proof.Machine

/-! ### Interrupts (R247) -/

theorem interruptAccepted_of_disabled (s : State) (h : s.psw.i = false ∨ s.pswNext.isSome = true) :
    interruptAccepted s = false := by
  rcases h with h | h
  · simp [interruptAccepted, h]
  · simp [interruptAccepted, Option.isNone_eq_false_iff.mpr h]

theorem step_of_not_accepted (s : State) (h : interruptAccepted s = false) : step s = runInstruction (sampleIrq s) :=
  if_neg (Bool.eq_false_iff.mp h)

/-- Settles O60: no interrupt is accepted, and past the bit consumed the two states are the same. -/
theorem maskedInterruptInvisible : Obligations.MaskedInterruptInvisible := by
  intro s l l' masked tails
  have same : sampleIrq { s with irq := l } = sampleIrq { s with irq := l' } := by
    rw [sampleIrq, sampleIrq, tails]
  have runs (m : List Bool) : step { s with irq := m } = runInstruction (sampleIrq { s with irq := m }) :=
    step_of_not_accepted _ (interruptAccepted_of_disabled _ masked)
  rw [runs, runs, same]

/-! ### The fetched word (R63, R72) -/

/-- A word depends on its four bytes alone. -/
theorem wordAt_congr {e : Endian} {f g : Word → Byte} {a : Word}
    (h : ∀ k < 4, f (a + BitVec.ofNat 32 k) = g (a + BitVec.ofNat 32 k)) : wordAt e f a = wordAt e g a := by
  have byte0 : f a = g a := by simpa using h 0 (by decide)
  have byte1 : f (a + 1) = g (a + 1) := h 1 (by decide)
  have byte2 : f (a + 2) = g (a + 2) := h 2 (by decide)
  have byte3 : f (a + 3) = g (a + 3) := h 3 (by decide)
  rw [wordAt, wordAt, byte0, byte1, byte2, byte3]

theorem fetchedWord_empty (s : State) (b : Byte) (aligned : s.pc.toNat % 4 = 0)
    (h : readsEmpty s.params s.pc 4 b = true) : fetchedWord s = b ++ b ++ b ++ b := by
  simp only [readsEmpty, List.all_eq_true, List.mem_range, beq_iff_eq] at h
  have bytes : fetchedWord s = wordAt s.params.endian (fun _ => b) s.pc := wordAt_congr fun k hk => by
    rw [busByte_empty .fetch s _ b]
    rw [toNat_add_of_aligned .word s.pc k aligned hk]
    exact h k hk
  rw [bytes]
  cases s.params.endian <;> rfl

theorem fetchedWord_readWord (s : State) (aligned : s.pc.toNat % 4 = 0) (h : holdsMemory s.params s.pc 4 = true) :
    fetchedWord s = readWord s.params.endian s.mem s.pc := by
  simp only [holdsMemory, List.all_eq_true, List.mem_range] at h
  exact wordAt_congr fun k hk => busByte_memory .fetch s _ (by
    rw [toNat_add_of_aligned .word s.pc k aligned hk]
    exact h k hk)

/-! ### Fetch, decode, execute (R282) -/

section
variable {s : State} (masked : interruptAccepted s = false) (aligned : s.pc.toNat % 4 = 0)
include masked aligned

theorem step_of_decoded {i : Instr} (h : decodeWith s.params.opcodeMap (fetchedWord (sampleIrq s)) = .ok i) :
    step s = exec i (sampleIrq s) := by
  rw [step_of_not_accepted s masked, runInstruction, fetch_of_aligned (sampleIrq s) aligned]
  simp only [sampleIrq_params, h]

theorem step_of_unassigned
    (h : ∀ k : Mnemonic, s.params.opcodeMap.op k ≠ (fetchedWord (sampleIrq s)).extractLsb' 25 7) :
    step s = .refused (.unassignedOpcode (fetchedWord (sampleIrq s)) s.pc) := by
  have unassigned := (decodeWith_error_iff _ _).mpr ((mnemonicOf_eq_none s.params.opcodeMap _).mpr h)
  rw [step_of_not_accepted s masked, runInstruction, fetch_of_aligned (sampleIrq s) aligned]
  simp only [sampleIrq_params, unassigned, sampleIrq_pc]

theorem step_refused_names {r : Refusal} (h : step s = .refused r) :
    r.names = some (fetchedWord (sampleIrq s), s.pc) := by
  cases hd : decodeWith s.params.opcodeMap (fetchedWord (sampleIrq s)) with
  | error e =>
    rw [step_of_not_accepted s masked, runInstruction, fetch_of_aligned (sampleIrq s) aligned] at h
    simp only [sampleIrq_params, hd] at h
    cases h
    rfl
  | ok i =>
    rw [step_of_decoded masked aligned hd] at h
    exact exec_refused_names i (sampleIrq s) r h

end

/-- Settles O47: a step faults at a misaligned `PC` alone; else the word is the fetched one. -/
theorem noAccessStopsTheMachine : Obligations.NoAccessStopsTheMachine := by
  intro s aligned
  refine ⟨fun f h => step_fault s f h aligned, fun masked => ⟨fetchedWord (sampleIrq s), ?_, ?_, ?_⟩⟩
  · exact fun b empty => fetchedWord_empty (sampleIrq s) b aligned empty
  · exact fun i decoded => step_of_decoded masked aligned decoded
  · exact fun unassigned => step_of_unassigned masked aligned unassigned

/-- Settles O57: where the map keeps memory the fetched word is the one memory denotes. -/
theorem stepRunsDecodedInstruction : Obligations.StepRunsDecodedInstruction := by
  intro s w masked aligned memory hw
  obtain rfl : fetchedWord (sampleIrq s) = w := (fetchedWord_memory (sampleIrq s) aligned memory).trans hw.symm
  exact ⟨fun i => step_of_decoded masked aligned, step_of_unassigned masked aligned,
    fun r => step_refused_names masked aligned⟩

/-! ### The end of a run (R291) -/

theorem relAddr_zero (s : State) : relAddr s 0 = s.pc := by
  unfold relAddr
  split <;> simp

/-- An instruction that changes nothing but the counters, with nothing pending. -/
theorem exec_unchanged {i : Instr} {s : State} {f : Flow} (nothing_pending : s.pswNext = none)
    (effect : effectOf i s = .done s f) :
    exec i s =
      .next { s with lstpc := s.pc, pc := flowPc s f, nxtpc := flowNxtpc s f, prevScc := i.scc } := by
  rw [exec_done i s s f (.inl nothing_pending) effect]
  simp [retire, nothing_pending]

section
variable {s : State} (disabled : s.psw.i = false) (nothing_pending : s.pswNext = none)
  (aligned : s.pc.toNat % 4 = 0) (injective : s.params.opcodeMap.injective = true)
  (memory : holdsMemory s.params s.pc 4 = true)
include disabled nothing_pending aligned injective memory

/-- The first of the two words: a jump to itself, taken. -/
theorem step_jump_to_self
    (jump : readWord s.params.endian s.mem s.pc = encodeWith s.params.opcodeMap (.jmpr false .alw 0)) :
    step s = .next { sampleIrq s with lstpc := s.pc, pc := s.nxtpc, nxtpc := s.pc, prevScc := false } := by
  have decoded : decodeWith s.params.opcodeMap (fetchedWord (sampleIrq s)) = .ok (.jmpr false .alw 0) := by
    rw [fetchedWord_readWord (sampleIrq s) aligned memory]
    exact (congrArg _ jump).trans (decodeInvertsEncode _ _ injective)
  have effect : effectOf (.jmpr false .alw 0) (sampleIrq s) = .done (sampleIrq s) (.jump s.pc) := by
    rw [effectOf, relAddr_zero]
    exact alignedTarget_pass _ _ aligned
  exact (step_of_decoded (interruptAccepted_of_disabled s (.inl disabled)) aligned decoded).trans
    (exec_unchanged (s := sampleIrq s) nothing_pending effect)

/-- The second: an addition to `r0` with SCC = 0. -/
theorem step_nop
    (nop : memNat s.params.endian s.mem s.pc.toNat 4 =
      (encodeWith s.params.opcodeMap (.add false 0 0 (.reg 0))).toNat) :
    step s = .next { sampleIrq s with lstpc := s.pc, pc := s.nxtpc, nxtpc := s.nxtpc + 4, prevScc := false } := by
  have fetched : fetchedWord (sampleIrq s) = encodeWith s.params.opcodeMap (.add false 0 0 (.reg 0)) := by
    rw [fetchedWord_memory (sampleIrq s) aligned memory]
    exact (congrArg _ nop).trans ((BitVec.ofNat_toNat ..).trans (BitVec.setWidth_eq _))
  have decoded : decodeWith s.params.opcodeMap (fetchedWord (sampleIrq s)) = .ok (.add false 0 0 (.reg 0)) :=
    fetched ▸ decodeInvertsEncode _ _ injective
  have effect : effectOf (.add false 0 0 (.reg 0)) (sampleIrq s) = .done (sampleIrq s) .seq := rfl
  exact (step_of_decoded (interruptAccepted_of_disabled s (.inl disabled)) aligned decoded).trans
    (exec_unchanged (s := sampleIrq s) nothing_pending effect)

end

/-- Settles O58: the jump fetches itself again by way of the instruction after it. -/
theorem endOfRunRepeats : Obligations.EndOfRunRepeats := by
  intro s sound injective ended disabled memory memory4 nop
  obtain ⟨aligned, aligned4, -⟩ := (sound_iff s).mp sound
  rw [wordAligned_iff] at aligned aligned4
  simp only [State.ended, Bool.and_eq_true, beq_iff_eq, Option.isNone_iff_eq_none] at ended
  obtain ⟨⟨next, nothing_pending⟩, jump⟩ := ended
  refine ⟨_, step_jump_to_self disabled nothing_pending aligned injective memory jump, ?_⟩
  rw [← next] at memory4 nop
  rw [step_nop (s := { sampleIrq s with lstpc := s.pc, pc := s.nxtpc, nxtpc := s.pc, prevScc := false })
    disabled nothing_pending aligned4 injective memory4 nop]
  simp [sampleIrq, next]

end Sys2Proof.Machine

namespace Sys2Proof.Interrupts
open Machine

/-- Settles O59: an accepted interrupt is a trap entry, with the bit consumed. -/
theorem interruptAccepted : Obligations.InterruptAccepted := by
  intro s irq enabled nothing_pending
  have accepted : Machine.interruptAccepted s = true := by
    simp [Machine.interruptAccepted, irq, enabled, nothing_pending]
  exact ⟨trapEntry (sampleIrq s), if_pos accepted, trapEntered_trapEntry (sampleIrq s)⟩

end Sys2Proof.Interrupts
end

section
/-! PROOFS. Two runs compared: an instruction under another mode, or with nothing pending (R46, R256, R284). -/

namespace Sys2Proof.Machine

/-! ### A state with its mode and its pending word changed -/

/-- `s` with `m` applied to its mode and `n` to its pending status word: in the comparisons one of the two is left
alone. -/
def State.mapStatus (m : Bool → Bool) (n : Option Psw → Option Psw) (s : State) : State :=
  { s with psw := { s.psw with s := m s.psw.s }, pswNext := n s.pswNext }

/-- An effect with the state of its completion changed. -/
def Effect.map (g : State → State) : Effect → Effect
  | .done t f => .done (g t) f
  | .trap c => .trap c
  | .refuse r => .refuse r

section
variable (m : Bool → Bool) (n : Option Psw → Option Psw) (s : State)

/-! What an instruction reads is the same. -/

theorem mapStatus_x (i : RegName) : (s.mapStatus m n).x i = s.x i := rfl

theorem mapStatus_s : (s.mapStatus m n).psw.s = m s.psw.s := rfl

theorem mapStatus_swp : (s.mapStatus m n).psw.swp = s.psw.swp := rfl

theorem mapStatus_params : (s.mapStatus m n).params = s.params := rfl

theorem mapStatus_src2 (s2 : Src2) : src2 (s.mapStatus m n) s2 = src2 s s2 := by
  cases s2 with
  | reg r => rfl
  | imm b => rfl

theorem mapStatus_absAddr (rs1 : RegName) (s2 : Src2) : absAddr (s.mapStatus m n) rs1 s2 = absAddr s rs1 s2 := by
  rw [absAddr, mapStatus_src2, mapStatus_x, absAddr]

theorem mapStatus_relAddr (imm19 : BitVec 19) : relAddr (s.mapStatus m n) imm19 = relAddr s imm19 := rfl

theorem mapStatus_refusal (r : Word → Word → Refusal) : (s.mapStatus m n).refusal r = s.refusal r := rfl

theorem mapStatus_busByte (x : Access) : busByte x (s.mapStatus m n) = busByte x s := rfl

theorem mapStatus_condHolds (c : Cond) : condHolds c (s.mapStatus m n).psw = condHolds c s.psw := by
  cases c <;> rfl

/-! What it writes is written beside the mode and the pending word. -/

theorem mapStatus_writeX (i : RegName) (v : Word) :
    (s.mapStatus m n).writeX i v = (s.writeX i v).mapStatus m n := by
  unfold State.writeX State.writeXw
  split <;> rfl

theorem mapStatus_setCwp (w : Window) : (s.mapStatus m n).setCwp w = (s.setCwp w).mapStatus m n := rfl

theorem mapStatus_writeFlags (scc : Bool) (f : Flags) :
    (s.mapStatus m n).writeFlags scc f = (s.writeFlags scc f).mapStatus m n := by
  unfold State.writeFlags
  split <;> rfl

theorem mapStatus_useDraws (k : Nat) : (s.mapStatus m n).useDraws k = (s.useDraws k).mapStatus m n := rfl

theorem mapStatus_callFlags (scc : Bool) : callFlags scc (s.mapStatus m n) = (callFlags scc s).mapStatus m n := by
  unfold callFlags
  split
  · rw [mapStatus_writeFlags, mapStatus_useDraws]
    rfl
  · rfl

theorem mapStatus_relStoreAfter (scc : Bool) :
    relStoreAfter scc (s.mapStatus m n) = (relStoreAfter scc s).mapStatus m n := by
  unfold relStoreAfter
  split
  · rw [mapStatus_writeFlags, mapStatus_useDraws]
    rfl
  · rfl

/-! The checks let the same effects go on. -/

theorem map_privileged (e : Effect) (mode : m s.psw.s = s.psw.s) :
    privileged (s.mapStatus m n) (e.map (·.mapStatus m n)) = (privileged s e).map (·.mapStatus m n) := by
  rw [privileged, privileged, mapStatus_s, mode]
  split <;> rfl

theorem map_alignedTarget (g : State → State) (ea : Word) (e : Effect) :
    alignedTarget ea (e.map g) = (alignedTarget ea e).map g := by
  unfold alignedTarget
  split <;> rfl

theorem map_windowCheckCall (w : Window) (e : Effect) :
    windowCheckCall (s.mapStatus m n) w (e.map (·.mapStatus m n)) =
      (windowCheckCall s w e).map (·.mapStatus m n) := by
  unfold windowCheckCall
  rw [mapStatus_swp, mapStatus_params, mapStatus_refusal]
  split
  · cases s.params.windowCheck <;> rfl
  · rfl

theorem map_windowCheckReturn (w : Window) (e : Effect) :
    windowCheckReturn (s.mapStatus m n) w (e.map (·.mapStatus m n)) =
      (windowCheckReturn s w e).map (·.mapStatus m n) := by
  unfold windowCheckReturn
  rw [mapStatus_swp, mapStatus_params, mapStatus_refusal]
  split
  · cases s.params.windowCheck <;> rfl
  · rfl

theorem map_whenCond (c : Cond) (e : Effect) :
    whenCond c (s.mapStatus m n) (e.map (·.mapStatus m n)) = (whenCond c s e).map (·.mapStatus m n) := by
  simp only [whenCond, mapStatus_condHolds, mapStatus_refusal]
  cases condHolds c s.psw with
  | none => rfl
  | some b => cases b <;> rfl

/-! The patterns of the families. -/

theorem map_logicResult (scc : Bool) (rd : RegName) (v : Word) :
    logicResult scc rd v (s.mapStatus m n) = (logicResult scc rd v s).map (·.mapStatus m n) := by
  rw [logicResult, mapStatus_writeX, mapStatus_writeFlags]
  rfl

theorem map_arithResult (scc : Bool) (rd : RegName) (r : Sum) :
    arithResult scc rd r (s.mapStatus m n) = (arithResult scc rd r s).map (·.mapStatus m n) := by
  rw [arithResult, mapStatus_writeX, mapStatus_writeFlags]
  rfl

theorem map_loadEffect (k : LoadKind) (scc : Bool) (rd : RegName) (ea : Word) :
    loadEffect k scc rd ea (s.mapStatus m n) = (loadEffect k scc rd ea s).map (·.mapStatus m n) := by
  rw [loadEffect, mapStatus_writeX, mapStatus_writeFlags, mapStatus_busByte, loadEffect]
  split <;> rfl

theorem map_storeEffect (w : Width) (rd : RegName) (ea : Word) (after : State → State)
    (h : ∀ t : State, after (t.mapStatus m n) = (after t).mapStatus m n) :
    storeEffect w rd ea after (s.mapStatus m n) = (storeEffect w rd ea after s).map (·.mapStatus m n) := by
  unfold storeEffect
  split
  · rfl
  · exact congrArg (Effect.done · .seq) (h { s with mem := busWrite s w ea (s.x rd) })

theorem map_absStore (w : Width) (scc : Bool) (rd rs1 : RegName) (s2 : Src2) :
    absStore w scc rd rs1 s2 (s.mapStatus m n) = (absStore w scc rd rs1 s2 s).map (·.mapStatus m n) := by
  cases s2 with
  | reg r => rfl
  | imm b => exact map_storeEffect m n s w rd _ _ fun t => mapStatus_writeFlags m n t scc _

theorem map_relStore (w : Width) (scc : Bool) (rd : RegName) (imm19 : BitVec 19) :
    relStore w scc rd imm19 (s.mapStatus m n) = (relStore w scc rd imm19 s).map (·.mapStatus m n) :=
  map_storeEffect m n s w rd _ _ fun t => mapStatus_relStoreAfter m n t scc

theorem map_callEffect (scc : Bool) (rd : RegName) (ea : Word) :
    callEffect scc rd ea (s.mapStatus m n) = (callEffect scc rd ea s).map (·.mapStatus m n) := by
  rw [callEffect, callEffect, ← map_alignedTarget, ← map_windowCheckCall, Effect.map, ← mapStatus_callFlags,
    ← mapStatus_writeX, ← mapStatus_setCwp]
  rfl

theorem map_jumpEffect (scc : Bool) (c : Cond) (ea : Word) :
    jumpEffect scc c ea (s.mapStatus m n) = (jumpEffect scc c ea s).map (·.mapStatus m n) := by
  unfold jumpEffect
  split
  · rfl
  · rw [← map_whenCond, ← map_alignedTarget]
    rfl

/-- The effect of an instruction under another mode, or with another pending word: `putpsw` and `reti` apart, which
write them, the privileged ones and `getpsw` only where the mode is left alone. -/
theorem effectOf_mapStatus (i : Instr) (not_putpsw : i.mnemonic ≠ .putpsw) (not_reti : i.mnemonic ≠ .reti)
    (mode : m = id ∨ (isPrivileged i = false ∧ i.mnemonic ≠ .getpsw)) :
    effectOf i (s.mapStatus m n) = (effectOf i s).map (·.mapStatus m n) := by
  cases i with
  | calli scc rd =>
    obtain rfl : m = id := mode.resolve_right fun h => nomatch h.1
    simp only [effectOf]
    rw [← map_privileged id n s _ rfl, ← map_windowCheckCall]
    simp only [Effect.map, ← mapStatus_writeX, ← mapStatus_setCwp]
    rfl
  | getpsw scc rd s2 =>
    obtain rfl : m = id := mode.resolve_right fun h => h.2 rfl
    simp only [effectOf]
    split
    · rw [mapStatus_writeX, mapStatus_writeFlags, mapStatus_useDraws]
      rfl
    · rfl
  | getlpc scc rd =>
    obtain rfl : m = id := mode.resolve_right fun h => nomatch h.1
    simp only [effectOf]
    rw [← map_privileged id n s _ rfl, mapStatus_writeX, mapStatus_writeFlags]
    rfl
  | putpsw => exact absurd rfl not_putpsw
  | reti => exact absurd rfl not_reti
  | callx scc rd rs1 s2 =>
    simp only [effectOf, mapStatus_absAddr, map_callEffect]
    split <;> rfl
  | callr scc rd imm19 => exact map_callEffect m n s scc rd _
  | jmpx scc c rs1 s2 => simp only [effectOf, mapStatus_absAddr, map_jumpEffect]
  | jmpr scc c imm19 => exact map_jumpEffect m n s scc c _
  | ret scc c rs1 s2 =>
    simp only [effectOf, mapStatus_absAddr]
    split
    · rfl
    · rw [← map_whenCond, ← map_alignedTarget, ← map_windowCheckReturn]
      rfl
  | sll | srl | sra | ldhi | and | or | xor =>
    simp only [effectOf, mapStatus_src2, mapStatus_x, map_logicResult]
  | add | sub | subi => simp only [effectOf, mapStatus_src2, mapStatus_x, map_arithResult]
  | addc | subc | subci =>
    simp only [effectOf, mapStatus_src2, mapStatus_x, map_arithResult]
    rfl
  | ldxw | lxhu | lxhs | lxbu | lxbs => simp only [effectOf, mapStatus_absAddr, map_loadEffect]
  | ldrw | lrhu | lrhs | lrbu | lrbs => exact map_loadEffect m n s _ _ _ _
  | stxw | stxh | stxb => exact map_absStore m n s _ _ _ _ _
  | strw | strh | strb => exact map_relStore m n s _ _ _ _

theorem flowPc_mapStatus (f : Flow) : flowPc (s.mapStatus m n) f = flowPc s f := by
  cases f <;> rfl

theorem flowNxtpc_mapStatus (f : Flow) : flowNxtpc (s.mapStatus m n) f = flowNxtpc s f := by
  cases f <;> rfl

end

/-! ### The two comparisons -/

/-- Settles O49: the mode goes beside the whole execution of an instruction that does not look at it. -/
theorem modeMattersOnlyToPrivileged : Obligations.ModeMattersOnlyToPrivileged := by
  intro i s t unprivileged not_getpsw no_trap nothing_pending system h
  obtain ⟨-, ⟨u, f, effect, rfl⟩ | ⟨c, effect, -⟩⟩ := exec_next i s t h
  · have not_putpsw : i.mnemonic ≠ .putpsw := fun hi => by simp [isPrivileged, hi] at unprivileged
    have not_reti : i.mnemonic ≠ .reti := fun hi => by simp [isPrivileged, hi] at unprivileged
    have user := effectOf_mapStatus (fun _ => false) id s i not_putpsw not_reti (.inr ⟨unprivileged, not_getpsw⟩)
    rw [effect] at user
    refine (exec_done i (s.mapStatus (fun _ => false) id) _ f (.inl nothing_pending) user).trans ?_
    rw [retire, flowPc_mapStatus, flowNxtpc_mapStatus]
    simp [retire, State.mapStatus, nothing_pending]
  · rw [trapCondition_eq, effect] at no_trap
    cases no_trap

/-- Settles O52: the pending word goes beside the whole execution of an instruction that is not barred. -/
theorem followerRunsUnderOldStatus : Obligations.FollowerRunsUnderOldStatus := by
  intro i s t q pending h
  obtain ⟨ready, ⟨u, f, effect, rfl⟩ | ⟨c, -, taken, -⟩⟩ := exec_next i s t h
  · obtain ⟨-, allowed⟩ := ready.resolve_left (by simp [pending])
    have not_putpsw : i.mnemonic ≠ .putpsw := fun hi => by simp [neverAfterPutpsw, hi] at allowed
    have not_reti : i.mnemonic ≠ .reti := fun hi => by simp [neverAfterPutpsw, hi] at allowed
    have alone := effectOf_mapStatus id (fun _ => none) s i not_putpsw not_reti (.inl rfl)
    rw [effect] at alone
    refine ⟨_, exec_done i (s.mapStatus id fun _ => none) _ f (.inl rfl) alone, ?_⟩
    rw [retire, retire, flowPc_mapStatus, flowNxtpc_mapStatus]
    simp [State.mapStatus, pending]
  · exact absurd taken.1 (by simp [pending])

end Sys2Proof.Machine
end

section
/-! PROOFS. A trap and the return from it (R249, R252, R253). -/

namespace Sys2Proof.Machine

theorem x_add_imm_zero (s : State) (rs1 : RegName) : s.x rs1 + src2 s (.imm 0) = s.x rs1 := by
  simp [src2]

theorem phys_r25_ne_r24 (w : Window) : phys w 25 ≠ phys w 24 := fun same =>
  absurd (windowsOverlap.2.1 w w 25 24 (by decide) (by decide) same).2 (by decide)

/-- Settles O50: `r25` and `LSTPC` bring the two counters back through the two delayed transfers, and `reti` undoes what
the trap did to the window and the mode. -/
theorem trapThenResume : Obligations.TrapThenResume := by
  intro s t entered nothing_pending pc_aligned nxtpc_aligned window
  obtain ⟨psw, pending, ⟨r25, others⟩, lstpc, -, -, mem, -, -, params, -⟩ := entered
  rw [nothing_pending] at pending
  have cwp : t.psw.cwp = s.psw.cwp - 1 := by rw [psw]
  have system : t.psw.s = true := by rw [psw]
  obtain ⟨t1, getlpc, ⟨r24, others1⟩, ⟨psw1, pending1⟩, mem1, ⟨-, -, -, -, -, -, params1⟩⟩ :=
    getlpcResult false 24 t (.inl pending) system
  replace psw1 : t1.psw = t.psw := by rw [psw1, pending]; rfl
  have abandoned : t1.x 25 = s.pc := by
    rw [State.x, psw1, others1 t.psw.cwp 25 (.inr (phys_r25_ne_r24 _)), cwp]
    exact r25
  obtain ⟨t2, jmpx, regs2, ⟨psw2, pending2⟩, mem2, ⟨-, -, nxtpc2, -, -, -, params2⟩⟩ :=
    jumpTaken .alw 25 (.imm 0) 0 t1 rfl _ List.mem_cons_self (by rw [x_add_imm_zero, abandoned]; exact pc_aligned)
  replace psw2 : t2.psw = t.psw := by rw [psw2, pending1]; exact psw1
  have following : t2.x 24 = s.nxtpc := by
    rw [State.x, psw2, xw_congr t1 t2 _ _ regs2, ← lstpc]
    exact r24
  have up : t2.psw.cwp + 1 = s.psw.cwp := by rw [psw2, cwp, sub_add_cancel]
  have window2 : t2.psw.cwp + 1 ≠ t2.psw.swp ∨ t2.params.windowCheck = .none := by
    rw [up, psw2, psw, params2, params1, params]
    exact window
  obtain ⟨t3, reti, regs3, ⟨psw3, pending3⟩, mem3, ⟨-, pc3, nxtpc3, -, -, -, -⟩⟩ :=
    retiTaken false .alw 24 (.imm 0) t2 pending2 (by rw [psw2, system]) rfl window2
      (by rw [x_add_imm_zero, following]; exact nxtpc_aligned)
  refine ⟨t1, t2, t3, getlpc, jmpx, reti, ?_, ?_, ?_, pending3, ?_, ?_⟩
  · rw [pc3, nxtpc2, x_add_imm_zero, abandoned]
  · rw [nxtpc3, x_add_imm_zero, following]
  · rw [psw3, pending2, up, psw2, psw]
    rfl
  · intro a
    rw [mem3 a, mem2 a, mem1 a, mem]
  · intro w j not_r24 not_r25
    rw [xw_congr t2 t3 w j regs3, xw_congr t1 t2 w j regs2, others1 w j (.inr (cwp ▸ not_r24)),
      others w j (.inr not_r25)]

end Sys2Proof.Machine
end
